-- ==== Sys2Proof/Word.lean ====
section
/-! DEFINITION. The word types of the machine: a byte of memory (R28), a 64-bit address or general register
(R21, R22), a 64-bit vector element (R12 `qword`), and a whole vector register at its largest width (R7, R13). -/

namespace Sys2Proof

/-- The 8-bit byte a linear address names (R28), and a byte of an instruction (R41). -/
abbrev Byte := BitVec 8

/-- A 64-bit linear address, general register or instruction pointer (R21, R22, R28). -/
abbrev Word := BitVec 64

/-- A 64-bit vector element, moved as 64 opaque bits (R66). -/
abbrev Qword := BitVec 64

/-- A vector register at the largest `MAX_VL`, 512 bits (R7, R13); a `ymm` operand is its low 256 bits (R14).
A `VL`-bit operand value is held zero-extended to this width. -/
abbrev Zmm := BitVec 512

end Sys2Proof
end

