-- ==== Sys2Proof/Config.lean ====
section
/-! DEFINITION. The parameters the spec leaves to the implementation and the platform (R7, R8, R23), as plain data.
They are constants of a run: `State` carries one `Config` and no step changes it, so a statement about every state
is a statement about every value of every parameter (log entry 2). -/

namespace Sys2Proof

/-- `KW`, the width of an opmask register (R8, R16): 16 with `AVX512F` alone, 64 with `AVX512BW`. -/
inductive OpmaskWidth where
  /-- `KW = 16`. -/
  | kw16
  /-- `KW = 64`. -/
  | kw64
deriving DecidableEq, Repr

/-- The exceptions a memory read can report through the open parameter `MemFault` (R33, R83, R84). The spec gives the
error code of `#PF` no width: 32 bits is PRESUMED, unsafe (log entry 21). -/
inductive MemException where
  /-- `#PF`, vector 14, with its error code (32 bits PRESUMED, log entry 21) and the faulting address. -/
  | pageFault (errorCode : BitVec 32) (address : Word)
  /-- `#GP(0)`, vector 13: a non-canonical address. -/
  | generalProtection
  /-- `#SS(0)`, vector 12: a stack-segment address. -/
  | stackFault
  /-- `#AC(0)`, vector 17: alignment check, which R31 leaves inside `MemFault`. -/
  | alignmentCheck
deriving DecidableEq, Repr

/-- The addresses from `first` to `last`, both included, compared as unsigned numbers. -/
structure AddrRange where
  first : Word
  last  : Word
deriving DecidableEq, Repr

/-- Which reads of `n` bytes at `addr` one rule of `MemFault` is about. -/
inductive FaultScope where
  /-- Every read that touches a byte of the range (an unmapped page, a non-canonical hole). -/
  | touching (range : AddrRange)
  /-- Every read of exactly `size` bytes that starts in the range (an alignment check on one access size). -/
  | startingAt (range : AddrRange) (size : Nat)
deriving DecidableEq, Repr

/-- One rule of the open parameter `MemFault` (R33): the reads in `scope` raise `exception`. A list of such rules,
the first that applies deciding, can say any function from (address, byte count) to an exception or none. -/
structure FaultRule where
  scope     : FaultScope
  exception : MemException
deriving DecidableEq, Repr

/-- One rule of the open parameter `Translate` (R36): the linear addresses of `range` go to the addresses that
start at `target`. An address no rule covers translates to itself. -/
structure TranslateRule where
  range  : AddrRange
  target : Word
deriving DecidableEq, Repr

/-- The parameters of R8, with `CR0.TS` of R82 and the device regions of R34. `MAX_VL` and `NVREG` follow from
`hasAvx512f` (R7, R13; `maxVl`, `nvreg` in Machine/Ops.lean). -/
structure Config where
  /-- CPUID feature flag `AVX2` (R1, R8, R23). -/
  hasAvx2     : Bool
  /-- CPUID feature flag `AVX512F` (R1, R8, R23). -/
  hasAvx512f  : Bool
  /-- CPUID feature flag `AVX512VL` (R1, R8, R23). -/
  hasAvx512vl : Bool
  /-- `OS_AVX`: the operating system has enabled the AVX state (R8, R82). -/
  osAvx       : Bool
  /-- `OS_AVX512`: the operating system has enabled the AVX-512 state (R8, R82). -/
  osAvx512    : Bool
  /-- `MODE64`: the processor is in 64-bit mode (R8, R58). -/
  mode64      : Bool
  /-- `CR0.TS`, whose value 1 gives `#NM` (R23, R82). -/
  taskSwitched : Bool
  /-- `KW` (R8, R16). -/
  opmaskWidth : OpmaskWidth
  /-- `MemFault` (R8, R33). -/
  memFault    : List FaultRule
  /-- The regions with read side effects, whose reading is refused (R34, R35). -/
  devices     : List AddrRange
  /-- `Translate` (R8, R36). -/
  translation : List TranslateRule
deriving DecidableEq, Repr

end Sys2Proof
end

