-- ==== Sys2Proof/Syntax.lean ====
section
/-! DEFINITION. The instructions: one constructor of `Instr` for each of the ten rows of spec/opcode_table.json, the
five encodings of VPERMPD (R39) and the five length values that always raise `#UD` (R50, R51). An instruction holds
its operands by number and, as the bits stored, the fields whose wrong value is `#UD` (the rows' `constraints`). -/

namespace Sys2Proof

/-- The vector length of an encoding (R6): `VL` in bits is 256 or 512. -/
inductive VectorLength where
  /-- `VL = 256`, `KL = 4`. -/
  | vl256
  /-- `VL = 512`, `KL = 8`. -/
  | vl512
deriving DecidableEq, Repr

/-- The displacement that `mod` selects (R44). -/
inductive Disp where
  /-- `mod = 00`: no displacement byte. -/
  | none
  /-- `mod = 01`: one byte, sign-extended, and scaled by `N` under EVEX (R45). -/
  | disp8 (d : BitVec 8)
  /-- `mod = 10`: four bytes, sign-extended, never scaled. -/
  | disp32 (d : BitVec 32)
deriving DecidableEq, Repr

/-- A memory operand of the admitted subset (R29, R44). Register numbers are general registers with their
extension bit, `B ++ base` and `X ++ index` (R47). -/
inductive MemOperand where
  /-- `mod = 00, rm = 101`: RIP-relative. -/
  | ripRel (d : BitVec 32)
  /-- No SIB byte: `G[base]` and a displacement. -/
  | base (base : BitVec 4) (d : Disp)
  /-- A SIB byte with a base register; index 0100b means that there is no index. -/
  | sib (scale : BitVec 2) (index base : BitVec 4) (d : Disp)
  /-- A SIB byte with `base = 101` and `mod = 00`: no base register, a 32-bit displacement. -/
  | sibNoBase (scale : BitVec 2) (index : BitVec 4) (d : BitVec 32)
deriving DecidableEq, Repr

/-- The `ModRM:r/m` operand (R26): a vector register, numbered by `w` bits (4 under VEX, 5 under EVEX, R47), or a
memory location. -/
inductive RmOperand (w : Nat) where
  /-- `mod = 11`. -/
  | reg (n : BitVec w)
  /-- Any other `mod`. -/
  | mem (m : MemOperand)
deriving DecidableEq, Repr

/-- The fields of the VEX imm8 encodings (R42, R46, R47). -/
structure VexImm8 where
  /-- The destination, `R ++ reg`. -/
  dest : BitVec 4
  /-- The source, `ModRM:r/m`. -/
  src  : RmOperand 4
  /-- The immediate, the last byte. -/
  imm  : Byte
  /-- `v~[3:0]` as stored: an operand of no VEX form, and reserved (R50). -/
  vvvv : BitVec 4
deriving DecidableEq, Repr

/-- The control fields of an EVEX prefix (R43, R49) and its reserved bits (R51). -/
structure EvexControl where
  /-- The opmask register; 000 is no write mask (R49). -/
  aaa : BitVec 3
  /-- Zeroing-masking rather than merging-masking (R49). -/
  z   : Bool
  /-- Embedded broadcast of a memory source (R49). -/
  b   : Bool
  /-- `P0[3:2]`, reserved as 00 (R43, R51). -/
  p0Reserved : BitVec 2
  /-- `P1[2]`, reserved as 1 (R43, R51). -/
  p1Fixed : Bool
deriving DecidableEq, Repr

/-- The fields of the EVEX imm8 encodings (R43, R46, R47). -/
structure EvexImm8 where
  /-- The destination, `R' ++ R ++ reg`. -/
  dest : BitVec 5
  /-- The source, `ModRM:r/m`. -/
  src  : RmOperand 5
  /-- The immediate, the last byte. -/
  imm  : Byte
  /-- Mask, zeroing, broadcast and reserved bits. -/
  ctl  : EvexControl
  /-- `v~[3:0]` as stored, reserved in this form (R50). -/
  vvvv : BitVec 4
  /-- `V'~` as stored, reserved in this form (R51). -/
  vPrime : Bool
deriving DecidableEq, Repr

/-- The fields of the EVEX vector-control encodings (R43, R46, R47). -/
structure EvexVec where
  /-- The destination, `R' ++ R ++ reg`. -/
  dest : BitVec 5
  /-- The index register, `V' ++ NOT v~[3:0]`. -/
  idx  : BitVec 5
  /-- The data, `ModRM:r/m`. -/
  src  : RmOperand 5
  /-- Mask, zeroing, broadcast and reserved bits. -/
  ctl  : EvexControl
deriving DecidableEq, Repr

/-- The rows of spec/opcode_table.json, in the table's order. -/
inductive Instr where
  /-- Row `VPERMPD_VEX256_IMM8` (R69). -/
  | vpermpdVex256Imm8 (f : VexImm8)
  /-- Row `VPERMPD_EVEX256_IMM8` (R70). -/
  | vpermpdEvex256Imm8 (f : EvexImm8)
  /-- Row `VPERMPD_EVEX512_IMM8` (R71). -/
  | vpermpdEvex512Imm8 (f : EvexImm8)
  /-- Row `VPERMPD_EVEX256_VEC` (R74). -/
  | vpermpdEvex256Vec (f : EvexVec)
  /-- Row `VPERMPD_EVEX512_VEC` (R75). -/
  | vpermpdEvex512Vec (f : EvexVec)
  /-- Row `VPERMPD_VEX128_IMM8_UD`, `VEX.L = 0` (R77). -/
  | illegalVex128Imm8 (f : VexImm8)
  /-- Row `VPERMPD_EVEX128_IMM8_UD`, `EVEX.L'L = 00b` (R79). -/
  | illegalEvex128Imm8 (f : EvexImm8)
  /-- Row `VPERMPD_EVEX128_VEC_UD`, `EVEX.L'L = 00b` (R79). -/
  | illegalEvex128Vec (f : EvexVec)
  /-- Row `VPERMPD_EVEXLL11_IMM8_UD`, `EVEX.L'L = 11b` (R51). -/
  | illegalEvexLl11Imm8 (f : EvexImm8)
  /-- Row `VPERMPD_EVEXLL11_VEC_UD`, `EVEX.L'L = 11b` (R51). -/
  | illegalEvexLl11Vec (f : EvexVec)
deriving DecidableEq, Repr

end Sys2Proof
end

