-- ==== Sys2Proof/WellFormed.lean ====
section
/-! DEFINITION. Which terms of `Instr` stand for an encoding (`encodable`), and which of those are valid VPERMPD
instructions, with no reserved field at a value the spec makes `#UD` (`wellFormed`). -/

namespace Sys2Proof

/-- Does the displacement take the bytes of `mod = 00`, none at all? -/
def Disp.isNone : Disp → Bool
  | .none => true
  | .disp8 _ => false
  | .disp32 _ => false

/-- Can ModRM, SIB and displacement say this memory operand (R44)? `rm = 100` announces a SIB byte, `mod = 00` with
`rm = 101` is RIP-relative, and `mod = 00` with `sib.base = 101` has no base. -/
def MemOperand.encodable : MemOperand → Bool
  | .ripRel _ => true
  | .base g d => g.setWidth 3 != 4#3 && !(d.isNone && g.setWidth 3 == 5#3)
  | .sib _ _ g d => !(d.isNone && g.setWidth 3 == 5#3)
  | .sibNoBase _ _ _ => true

/-- Is the `ModRM:r/m` operand a register (`mod = 11`, R26)? -/
def RmOperand.isReg {w : Nat} : RmOperand w → Bool
  | .reg _ => true
  | .mem _ => false

/-- Can ModRM, SIB and displacement say this operand? -/
def RmOperand.encodable {w : Nat} : RmOperand w → Bool
  | .reg _ => true
  | .mem m => m.encodable

/-- Is there an encoding of this instruction? -/
def Instr.encodable : Instr → Bool
  | .vpermpdVex256Imm8 f => f.src.encodable
  | .vpermpdEvex256Imm8 f => f.src.encodable
  | .vpermpdEvex512Imm8 f => f.src.encodable
  | .vpermpdEvex256Vec f => f.src.encodable
  | .vpermpdEvex512Vec f => f.src.encodable
  | .illegalVex128Imm8 f => f.src.encodable
  | .illegalEvex128Imm8 f => f.src.encodable
  | .illegalEvex128Vec f => f.src.encodable
  | .illegalEvexLl11Imm8 f => f.src.encodable
  | .illegalEvexLl11Vec f => f.src.encodable

/-- The VEX fields as VPERMPD must have them (R50): `v~ = 1111b`. -/
def VexImm8.valid (f : VexImm8) : Bool :=
  f.vvvv == 0b1111#4

/-- The EVEX fields every form must have (R51): `P0[3:2] = 00b`, `P1[2] = 1`, no zeroing without a mask, no
broadcast of a register. -/
def EvexControl.valid (c : EvexControl) (srcIsReg : Bool) : Bool :=
  c.p0Reserved == 0#2 && c.p1Fixed && !(c.z && c.aaa == 0#3) && !(c.b && srcIsReg)

/-- The EVEX imm8 fields as VPERMPD must have them (R50, R51): also `v~ = 1111b` and `V'~ = 1`. -/
def EvexImm8.valid (f : EvexImm8) : Bool :=
  f.ctl.valid f.src.isReg && f.vvvv == 0b1111#4 && f.vPrime

/-- The EVEX vector-control fields as VPERMPD must have them (R51): every `vvvv` is legal (R80). -/
def EvexVec.valid (f : EvexVec) : Bool :=
  f.ctl.valid f.src.isReg

/-- Has every reserved field the value VPERMPD must have (R50, R51)? No length value of the illegal rows does. -/
def Instr.valid : Instr → Bool
  | .vpermpdVex256Imm8 f => f.valid
  | .vpermpdEvex256Imm8 f => f.valid
  | .vpermpdEvex512Imm8 f => f.valid
  | .vpermpdEvex256Vec f => f.valid
  | .vpermpdEvex512Vec f => f.valid
  | .illegalVex128Imm8 _ => false
  | .illegalEvex128Imm8 _ => false
  | .illegalEvex128Vec _ => false
  | .illegalEvexLl11Imm8 _ => false
  | .illegalEvexLl11Vec _ => false

/-- A valid VPERMPD instruction: an encoding exists, it is one of the five of R39, and no reserved field has a
value that raises `#UD` (R50, R51). -/
def Instr.wellFormed (i : Instr) : Bool :=
  i.encodable && i.valid

end Sys2Proof
end

