-- ==== Sys2Proof/Decode.lean ====
section
/-! DEFINITION. From bytes to instructions and back: the decode procedures of R54 and R55 over ModRM, SIB and
displacement (R44), legacy prefixes before them (R53), the instruction's length (R57), the rows of
spec/opcode_table.json as masks, and an encoder written from R41 to R47. -/

namespace Sys2Proof

/-! ### What the decoder answers -/

/-- Why a byte string is given no meaning. -/
inductive DecodeReject where
  /-- It is none of the ten rows (R52, R62). -/
  | notVpermpd
  /-- A VPERMPD row after a segment-override or address-size prefix (R29, R53). -/
  | addressOverride
  /-- The bytes end before the instruction does: with the 15 bytes that `step` fetches, an instruction longer than
  15 bytes (R57, U23). -/
  | truncated
deriving DecidableEq, Repr

/-- The decoder's answer. -/
inductive Decoded where
  /-- An instruction, and the bytes after it. -/
  | instr (i : Instr) (rest : List Byte)
  /-- A row of the table behind a prefix that makes it `#UD` (R53), with the length in bytes, prefixes included. -/
  | ud (length : Nat)
  /-- No meaning, and why. -/
  | rejected (r : DecodeReject)
deriving DecidableEq, Repr

/-! ### ModRM, SIB and displacement (R44) -/

/-- `disp32`: four bytes, least significant first (R30, R44). -/
def parseDisp32 : List Byte → Option (BitVec 32 × List Byte)
  | b0 :: b1 :: b2 :: b3 :: rest => some (b3 ++ b2 ++ b1 ++ b0, rest)
  | _ => none

/-- The displacement of a `mod` other than 11 outside the two special cases of R44. -/
def parseDisp (mod : BitVec 2) (bs : List Byte) : Option (Disp × List Byte) :=
  if mod == 0#2 then some (.none, bs)
  else if mod == 1#2 then
    match bs with
    | d :: rest => some (.disp8 d, rest)
    | [] => none
  else (parseDisp32 bs).map fun p => (.disp32 p.1, p.2)

/-- A SIB byte and its displacement; `x` and `b` are the extension bits `X` and `B` (R44, R47). -/
def parseSib (x b : Bool) (mod : BitVec 2) : List Byte → Option (MemOperand × List Byte)
  | [] => none
  | s :: rest =>
    let scale := s.extractLsb' 6 2
    let index := BitVec.ofBool x ++ s.extractLsb' 3 3
    let base := s.extractLsb' 0 3
    if base == 5#3 && mod == 0#2 then
      (parseDisp32 rest).map fun p => (.sibNoBase scale index p.1, p.2)
    else
      (parseDisp mod rest).map fun p => (.sib scale index (BitVec.ofBool b ++ base) p.1, p.2)

/-- ModRM, SIB and displacement: the `reg` field, the `r/m` operand with a register still numbered by its three
ModRM bits, and the bytes that follow (R26, R44). -/
def parseRm (x b : Bool) : List Byte → Option (BitVec 3 × RmOperand 3 × List Byte)
  | [] => none
  | m :: rest =>
    let mod := m.extractLsb' 6 2
    let reg := m.extractLsb' 3 3
    let rm := m.extractLsb' 0 3
    if mod == 3#2 then some (reg, .reg rm, rest)
    else if rm == 4#3 then
      (parseSib x b mod rest).map fun p => (reg, .mem p.1, p.2)
    else if mod == 0#2 && rm == 5#3 then
      (parseDisp32 rest).map fun p => (reg, .mem (.ripRel p.1), p.2)
    else
      (parseDisp mod rest).map fun p => (reg, .mem (.base (BitVec.ofBool b ++ rm) p.1), p.2)

/-- The operand with its register renumbered: a memory operand stays. -/
def RmOperand.mapReg {v w : Nat} (g : BitVec v → BitVec w) : RmOperand v → RmOperand w
  | .reg n => .reg (g n)
  | .mem m => .mem m

/-! ### The VEX and EVEX prefixes (R42, R43) -/

/-- The row of a VEX imm8 encoding, by `VEX.L` (R40, R50). The illegal rows are parsed to their end like the others:
DESIGN CHOICE, safe (log entry 14). -/
def vexRow (l : Bool) (f : VexImm8) : Instr :=
  if l then .vpermpdVex256Imm8 f else .illegalVex128Imm8 f

/-- The row of an EVEX imm8 encoding, by `EVEX.L'L` (R40, R50, R51). -/
def evexImm8Row (ll : BitVec 2) (f : EvexImm8) : Instr :=
  if ll == 1#2 then .vpermpdEvex256Imm8 f
  else if ll == 2#2 then .vpermpdEvex512Imm8 f
  else if ll == 0#2 then .illegalEvex128Imm8 f
  else .illegalEvexLl11Imm8 f

/-- The row of an EVEX vector-control encoding, by `EVEX.L'L` (R40, R50, R51). -/
def evexVecRow (ll : BitVec 2) (f : EvexVec) : Instr :=
  if ll == 1#2 then .vpermpdEvex256Vec f
  else if ll == 2#2 then .vpermpdEvex512Vec f
  else if ll == 0#2 then .illegalEvex128Vec f
  else .illegalEvexLl11Vec f

/-- R54, after the byte `C4h`. The `#UD` tests of R54 are the instruction's own (Machine/Operands.lean); the ones
on `L` are the rows. -/
def decodeVex : List Byte → Decoded
  | p0 :: p1 :: opcode :: rest =>
    if p0.extractLsb' 0 5 == 0b00011#5 && p1.extractLsb' 0 2 == 0b01#2 && opcode == 0x01#8 && p1.getLsbD 7 then
      match parseRm (!p0.getLsbD 6) (!p0.getLsbD 5) rest with
      | some (reg, src, imm :: rest') =>
        .instr (vexRow (p1.getLsbD 2)
          { dest := BitVec.ofBool (!p0.getLsbD 7) ++ reg
            src := src.mapReg fun rm => BitVec.ofBool (!p0.getLsbD 5) ++ rm
            imm := imm
            vvvv := p1.extractLsb' 3 4 }) rest'
      | some (_, _, []) => .rejected .truncated
      | none => .rejected .truncated
    else .rejected .notVpermpd
  | _ => .rejected .truncated

/-- R55, after the byte `62h`. The `#UD` tests of R55 are the instruction's own (Machine/Operands.lean); the ones
on `L'L` are the rows. -/
def decodeEvex : List Byte → Decoded
  | p0 :: p1 :: p2 :: opcode :: rest =>
    let imm8Form := p0.extractLsb' 0 2 == 0b11#2 && opcode == 0x01#8
    let vecForm := p0.extractLsb' 0 2 == 0b10#2 && opcode == 0x16#8
    if p1.extractLsb' 0 2 == 0b01#2 && p1.getLsbD 7 && (imm8Form || vecForm) then
      match parseRm (!p0.getLsbD 6) (!p0.getLsbD 5) rest with
      | none => .rejected .truncated
      | some (reg, rmOperand, rest') =>
        let dest := BitVec.ofBool (!p0.getLsbD 4) ++ BitVec.ofBool (!p0.getLsbD 7) ++ reg
        let src := rmOperand.mapReg fun rm => BitVec.ofBool (!p0.getLsbD 6) ++ BitVec.ofBool (!p0.getLsbD 5) ++ rm
        let ctl : EvexControl :=
          { aaa := p2.extractLsb' 0 3
            z := p2.getLsbD 7
            b := p2.getLsbD 4
            p0Reserved := p0.extractLsb' 2 2
            p1Fixed := p1.getLsbD 2 }
        let ll := p2.extractLsb' 5 2
        if imm8Form then
          match rest' with
          | imm :: rest'' =>
            .instr (evexImm8Row ll
              { dest := dest, src := src, imm := imm, ctl := ctl
                vvvv := p1.extractLsb' 3 4, vPrime := p2.getLsbD 3 }) rest''
          | [] => .rejected .truncated
        else
          .instr (evexVecRow ll
            { dest := dest
              idx := BitVec.ofBool (!p2.getLsbD 3) ++ ~~~(p1.extractLsb' 3 4)
              src := src, ctl := ctl }) rest'
    else .rejected .notVpermpd
  | _ => .rejected .truncated

/-- An instruction without legacy prefixes: the first byte tells VEX from EVEX (R41). -/
def decodeBody : List Byte → Decoded
  | [] => .rejected .truncated
  | b0 :: rest =>
    if b0 == 0xC4#8 then decodeVex rest
    else if b0 == 0x62#8 then decodeEvex rest
    else .rejected .notVpermpd

/-! ### Legacy prefixes (R53) -/

/-- `LOCK`, `66h`, `F2h`, `F3h` and `REX`, which make a VEX or EVEX instruction `#UD` (R53). -/
def isUdPrefix (b : Byte) : Bool :=
  b == 0xF0#8 || b == 0x66#8 || b == 0xF2#8 || b == 0xF3#8 || b.extractLsb' 4 4 == 4#4

/-- The segment-override prefixes and the address-size prefix, which the spec refuses (R29, R53). -/
def isOverridePrefix (b : Byte) : Bool :=
  b == 0x2E#8 || b == 0x36#8 || b == 0x3E#8 || b == 0x26#8 || b == 0x64#8 || b == 0x65#8 || b == 0x67#8

/-- What prefixes make of the instruction behind them: refused where one of them is an override (R29), else `#UD`
(R53); a mixture is refused, and so is a prefix before what is not VPERMPD: DESIGN CHOICE, safe (log entry 13). `total` is the number of bytes from the first prefix on. -/
def behindPrefixes (override : Bool) (total : Nat) : Decoded → Decoded
  | .instr _ rest => if override then .rejected .addressOverride else .ud (total - rest.length)
  | .ud n => .ud n
  | .rejected r => .rejected r

/-- The bytes behind at least one prefix. -/
def decodePrefixed (override : Bool) (total : Nat) : List Byte → Decoded
  | [] => .rejected .truncated
  | b :: rest =>
    if isUdPrefix b then decodePrefixed override total rest
    else if isOverridePrefix b then decodePrefixed true total rest
    else behindPrefixes override total (decodeBody (b :: rest))

/-- The decoder, total on every byte string. -/
def decode (bs : List Byte) : Decoded :=
  match bs with
  | [] => .rejected .truncated
  | b :: rest =>
    if isUdPrefix b then decodePrefixed false bs.length rest
    else if isOverridePrefix b then decodePrefixed true bs.length rest
    else decodeBody bs

/-! ### The opcode table's masks -/

/-- A row of spec/opcode_table.json: `match` and `mask` in fetch order. -/
structure OpcodeRow where
  pattern : List Byte
  mask    : List Byte
deriving DecidableEq, Repr

/-- `match` and `mask` of an instruction's row, copied from spec/opcode_table.json. -/
def Instr.row : Instr → OpcodeRow
  | .vpermpdVex256Imm8 _ => ⟨[0xC4, 0x03, 0x85, 0x01], [0xFF, 0x1F, 0x87, 0xFF]⟩
  | .vpermpdEvex256Imm8 _ => ⟨[0x62, 0x03, 0x81, 0x20, 0x01], [0xFF, 0x03, 0x83, 0x60, 0xFF]⟩
  | .vpermpdEvex512Imm8 _ => ⟨[0x62, 0x03, 0x81, 0x40, 0x01], [0xFF, 0x03, 0x83, 0x60, 0xFF]⟩
  | .vpermpdEvex256Vec _ => ⟨[0x62, 0x02, 0x81, 0x20, 0x16], [0xFF, 0x03, 0x83, 0x60, 0xFF]⟩
  | .vpermpdEvex512Vec _ => ⟨[0x62, 0x02, 0x81, 0x40, 0x16], [0xFF, 0x03, 0x83, 0x60, 0xFF]⟩
  | .illegalVex128Imm8 _ => ⟨[0xC4, 0x03, 0x81, 0x01], [0xFF, 0x1F, 0x87, 0xFF]⟩
  | .illegalEvex128Imm8 _ => ⟨[0x62, 0x03, 0x81, 0x00, 0x01], [0xFF, 0x03, 0x83, 0x60, 0xFF]⟩
  | .illegalEvex128Vec _ => ⟨[0x62, 0x02, 0x81, 0x00, 0x16], [0xFF, 0x03, 0x83, 0x60, 0xFF]⟩
  | .illegalEvexLl11Imm8 _ => ⟨[0x62, 0x03, 0x81, 0x60, 0x01], [0xFF, 0x03, 0x83, 0x60, 0xFF]⟩
  | .illegalEvexLl11Vec _ => ⟨[0x62, 0x02, 0x81, 0x60, 0x16], [0xFF, 0x03, 0x83, 0x60, 0xFF]⟩

/-- A byte string is a row's instruction when `(bytes AND mask) = match` over the row's bytes. -/
def OpcodeRow.accepts (r : OpcodeRow) (bs : List Byte) : Bool :=
  List.zipWith (· &&& ·) bs r.mask == r.pattern

/-! ### Length (R57) -/

/-- The bytes of a displacement: 0, 1 or 4. -/
def Disp.length : Disp → Nat
  | .none => 0
  | .disp8 _ => 1
  | .disp32 _ => 4

/-- `S + D`: the bytes of SIB and displacement. -/
def MemOperand.length : MemOperand → Nat
  | .ripRel _ => 4
  | .base _ d => d.length
  | .sib _ _ _ d => 1 + d.length
  | .sibNoBase _ _ _ => 1 + 4

/-- `S + D` of the `r/m` operand. -/
def RmOperand.length {w : Nat} : RmOperand w → Nat
  | .reg _ => 0
  | .mem m => m.length

/-- `len` of a VEX encoding: `P = 3`, `I = 1` (R57). -/
def VexImm8.length (f : VexImm8) : Nat := 3 + 1 + 1 + f.src.length + 1

/-- `len` of an EVEX imm8 encoding: `P = 4`, `I = 1` (R57). -/
def EvexImm8.length (f : EvexImm8) : Nat := 4 + 1 + 1 + f.src.length + 1

/-- `len` of an EVEX vector-control encoding: `P = 4`, `I = 0` (R57). -/
def EvexVec.length (f : EvexVec) : Nat := 4 + 1 + 1 + f.src.length

/-- `len`, the length of the instruction in bytes (R57). -/
def Instr.length : Instr → Nat
  | .vpermpdVex256Imm8 f => f.length
  | .vpermpdEvex256Imm8 f => f.length
  | .vpermpdEvex512Imm8 f => f.length
  | .vpermpdEvex256Vec f => f.length
  | .vpermpdEvex512Vec f => f.length
  | .illegalVex128Imm8 f => f.length
  | .illegalEvex128Imm8 f => f.length
  | .illegalEvex128Vec f => f.length
  | .illegalEvexLl11Imm8 f => f.length
  | .illegalEvexLl11Vec f => f.length

/-! ### The encoder (R41 to R47) -/

/-- `disp32`, least significant byte first. -/
def encodeDisp32 (d : BitVec 32) : List Byte :=
  [d.extractLsb' 0 8, d.extractLsb' 8 8, d.extractLsb' 16 8, d.extractLsb' 24 8]

/-- The displacement bytes. -/
def encodeDisp : Disp → List Byte
  | .none => []
  | .disp8 d => [d]
  | .disp32 d => encodeDisp32 d

/-- `mod` of a memory operand with this displacement (R44). -/
def Disp.mod : Disp → BitVec 2
  | .none => 0#2
  | .disp8 _ => 1#2
  | .disp32 _ => 2#2

/-- ModRM, SIB and displacement of an operand, with `reg` the ModRM `reg` field (R44). -/
def encodeRm {w : Nat} (reg : BitVec 3) : RmOperand w → List Byte
  | .reg n => [3#2 ++ reg ++ n.setWidth 3]
  | .mem (.ripRel d) => (0#2 ++ reg ++ 5#3) :: encodeDisp32 d
  | .mem (.base g d) => (d.mod ++ reg ++ g.setWidth 3) :: encodeDisp d
  | .mem (.sib sc ix g d) => (d.mod ++ reg ++ 4#3) :: (sc ++ ix.setWidth 3 ++ g.setWidth 3) :: encodeDisp d
  | .mem (.sibNoBase sc ix d) => (0#2 ++ reg ++ 4#3) :: (sc ++ ix.setWidth 3 ++ 5#3) :: encodeDisp32 d

/-- The extension bit `X` the operand needs (R47); an operand that has no use for it takes 0 (DESIGN CHOICE, safe, log
entry 19). -/
def RmOperand.xBit {w : Nat} : RmOperand w → Bool
  | .reg n => n.getLsbD 4
  | .mem (.ripRel _) => false
  | .mem (.base _ _) => false
  | .mem (.sib _ ix _ _) => ix.getLsbD 3
  | .mem (.sibNoBase _ ix _) => ix.getLsbD 3

/-- The extension bit `B` the operand needs (R47); an operand that has no use for it takes 0. -/
def RmOperand.bBit {w : Nat} : RmOperand w → Bool
  | .reg n => n.getLsbD 3
  | .mem (.ripRel _) => false
  | .mem (.base g _) => g.getLsbD 3
  | .mem (.sib _ _ g _) => g.getLsbD 3
  | .mem (.sibNoBase _ _ _) => false

/-- A VEX imm8 encoding with `VEX.L = l` (R41, R42). -/
def encodeVex (l : Bool) (f : VexImm8) : List Byte :=
  [0xC4#8,
   BitVec.ofBool (!f.dest.getLsbD 3) ++ BitVec.ofBool (!f.src.xBit) ++ BitVec.ofBool (!f.src.bBit) ++ 0b00011#5,
   1#1 ++ f.vvvv ++ BitVec.ofBool l ++ 0b01#2,
   0x01#8] ++ encodeRm (f.dest.setWidth 3) f.src ++ [f.imm]

/-- The EVEX prefix with map `mm`, length `ll`, stored `v~` and `V'~` (R43). -/
def encodeEvexPrefix (mm ll : BitVec 2) (dest : BitVec 5) (src : RmOperand 5) (c : EvexControl) (v : BitVec 4)
    (v' : Bool) : List Byte :=
  [0x62#8,
   BitVec.ofBool (!dest.getLsbD 3) ++ BitVec.ofBool (!src.xBit) ++ BitVec.ofBool (!src.bBit) ++
     BitVec.ofBool (!dest.getLsbD 4) ++ c.p0Reserved ++ mm,
   1#1 ++ v ++ BitVec.ofBool c.p1Fixed ++ 0b01#2,
   BitVec.ofBool c.z ++ ll ++ BitVec.ofBool c.b ++ BitVec.ofBool v' ++ c.aaa]

/-- An EVEX imm8 encoding with `EVEX.L'L = ll` (R41, R43). -/
def encodeEvexImm8 (ll : BitVec 2) (f : EvexImm8) : List Byte :=
  encodeEvexPrefix 0b11#2 ll f.dest f.src f.ctl f.vvvv f.vPrime ++ 0x01#8 ::
    (encodeRm (f.dest.setWidth 3) f.src ++ [f.imm])

/-- An EVEX vector-control encoding with `EVEX.L'L = ll` (R41, R43). -/
def encodeEvexVec (ll : BitVec 2) (f : EvexVec) : List Byte :=
  encodeEvexPrefix 0b10#2 ll f.dest f.src f.ctl (~~~(f.idx.setWidth 4)) (!f.idx.getLsbD 4) ++ 0x16#8 ::
    encodeRm (f.dest.setWidth 3) f.src

/-- The bytes of an instruction, in fetch order. -/
def encode : Instr → List Byte
  | .vpermpdVex256Imm8 f => encodeVex true f
  | .vpermpdEvex256Imm8 f => encodeEvexImm8 1#2 f
  | .vpermpdEvex512Imm8 f => encodeEvexImm8 2#2 f
  | .vpermpdEvex256Vec f => encodeEvexVec 1#2 f
  | .vpermpdEvex512Vec f => encodeEvexVec 2#2 f
  | .illegalVex128Imm8 f => encodeVex false f
  | .illegalEvex128Imm8 f => encodeEvexImm8 0#2 f
  | .illegalEvex128Vec f => encodeEvexVec 0#2 f
  | .illegalEvexLl11Imm8 f => encodeEvexImm8 3#2 f
  | .illegalEvexLl11Vec f => encodeEvexVec 3#2 f

/-! ### The host's words -/

/-- The longest instruction, in bytes, that the hardware fetches (R57). -/
def fetchWindow : Nat := 15

/-- The first `nbits` bits of `w` as bytes in fetch order, bit 0 the least significant bit of the first byte,
followed by bytes of zeros up to the fetch window. -/
def tableWordBytes (nbits w : Nat) : List Byte :=
  (List.range fetchWindow).map fun k => BitVec.ofNat 8 ((w % 2 ^ nbits) >>> (8 * k))

/-- The instruction the decoder reads from a word numbered as spec/opcode_table.json numbers it. -/
def decodeTableWord (nbits w : Nat) : Option Instr :=
  match decode (tableWordBytes nbits w) with
  | .instr i _ => some i
  | .ud _ => none
  | .rejected _ => none

end Sys2Proof
end

