-- ==== Sys2Proof/Machine/State.lean ====
section
/-! DEFINITION. The machine's state (R12 to R24), the reasons a step can stop, and the state after reset. All of it
is plain data. -/

namespace Sys2Proof.Machine

/-- The x87 state, which R20 names only to say that VPERMPD does not touch it. Its layout is PRESUMED from the x86
family (log entry 5). -/
structure X87 where
  /-- The eight 80-bit data registers. -/
  st   : Vector (BitVec 80) 8
  /-- The control, status and tag words. -/
  fcw  : BitVec 16
  fsw  : BitVec 16
  ftw  : BitVec 16
  /-- The last instruction's opcode, instruction pointer and data pointer. -/
  fop  : BitVec 11
  fip  : Word
  fdp  : Word
deriving DecidableEq, Repr

/-- Memory: the bytes that differ from what an unlisted address reads as, addresses strictly rising
(`Memory.wf` in Machine/Ops.lean). -/
abbrev Memory := List Host.Cell

/-- Everything the spec gives the machine. -/
structure State where
  /-- `V[0..31]` at the largest `MAX_VL` (R13, R14). Bits and registers that the configured machine lacks are 0
  (`Inv` in Safety.lean): DESIGN CHOICE, safe (log entry 16). -/
  v : Vector Zmm 32
  /-- `K[0..7]`, the opmask registers, at the largest `KW` (R16). -/
  k : Vector (BitVec 64) 8
  /-- `G[0..15]`, the general registers (R21). -/
  g : Vector Word 16
  /-- The instruction pointer: the address of the instruction's first byte (R22). -/
  pc : Word
  /-- `RFLAGS`, which VPERMPD neither reads nor writes (R20). -/
  rflags : BitVec 64
  /-- `MXCSR`, which VPERMPD neither reads nor writes (R20). -/
  mxcsr : BitVec 32
  /-- The x87 state, which VPERMPD does not touch (R20). -/
  x87 : X87
  /-- Memory, by address after `Translate` (R28, R35, R36). -/
  mem : Memory
  /-- The parameters, constant during a run (R8, R23). -/
  cfg : Config
deriving DecidableEq, Repr

/-- The exceptions that end a run (R88): each outcome is the pair of the exception and the state it left, which is
the state before the step (R87). -/
inductive Fault where
  /-- `#UD`, invalid opcode, vector 6, recording nothing (R81). Raised by a reserved encoding (R50, R51), a prefix
  before VEX or EVEX (R53), and a missing feature or disabled state (R82). Safe: nothing follows a fault (log
  entry 1). -/
  | ud (s : State)
  /-- `#NM`, device not available, vector 7. Raised by every form when `CR0.TS = 1` (R82). Unsafe: the spec also takes
  `CR0.TS = 0` as a premise (log entry 10). -/
  | nm (s : State)
  /-- The memory exception that `MemFault` reports for the operand read (R33). Safe. -/
  | mem (e : MemException) (s : State)
deriving DecidableEq, Repr

/-- The steps the spec gives no meaning: the model is stuck, which is neither success nor fault (R62, R100). -/
inductive Refusal where
  /-- `exec` has no meaning for this instruction yet. Raised by no arm of this model. Safe. -/
  | notModelled (mnemonic : String)
  /-- Not one of the table's rows (R62). Raised by `step`. Safe. -/
  | notVpermpd
  /-- A segment-override or address-size prefix (R29, R53). Raised by `step`. Safe. -/
  | addressOverride
  /-- Longer than 15 bytes through redundant prefixes (R57, U23). Raised by `step`. Safe. -/
  | tooLong
  /-- Not in 64-bit mode (R58). Raised by `step` and by every form. Safe. -/
  | notMode64
  /-- An instruction byte that cannot be read (R95, U22). Raised by `step`. Safe. -/
  | fetchUnreadable
  /-- The operand is in memory with read side effects (R34, U14). Raised by the forms with a memory source. Safe. -/
  | deviceMemory
deriving DecidableEq, Repr

/-- The x87 state after reset: PRESUMED, the x86 family's values (log entry 5). -/
def X87.reset : X87 :=
  { st := Vector.replicate 8 0#80
    fcw := 0x0040#16
    fsw := 0x0000#16
    ftw := 0x5555#16
    fop := 0#11
    fip := 0#64
    fdp := 0#64 }

/-- The parameters of the machine that `State.reset` describes: every feature present and enabled, 64-bit mode,
`CR0.TS = 0`, no fault, no device, the identity translation. DESIGN CHOICE (log entry 3): the spec leaves them open
(R8, R94, R95). -/
def resetConfig : Config :=
  { hasAvx2 := true
    hasAvx512f := true
    hasAvx512vl := true
    osAvx := true
    osAvx512 := true
    mode64 := true
    taskSwitched := false
    opmaskWidth := .kw64
    memFault := []
    devices := []
    translation := [] }

/-- The state right after reset. The spec specifies no reset value (R24, R93): registers and `pc` are 0 by DESIGN
CHOICE (log entry 4), `RFLAGS`, `MXCSR` and the x87 state are PRESUMED from the family (log entry 5), and memory
lists nothing (log entry 6). -/
def State.reset : State :=
  { v := Vector.replicate 32 0#512
    k := Vector.replicate 8 0#64
    g := Vector.replicate 16 0#64
    pc := 0#64
    rflags := 0x2#64
    mxcsr := 0x1F80#32
    x87 := X87.reset
    mem := []
    cfg := resetConfig }

end Sys2Proof.Machine
end

