-- ==== Sys2Proof/Machine/Ops.lean ====
section
/-! DEFINITION. The named operations over registers, elements and memory that the meanings share, raising an
exception, and completing an instruction. -/

namespace Sys2Proof.Machine

/-- What one instruction or one step answers. -/
abbrev Result := Host.Outcome State Fault Refusal

/-! ### Parameters that follow from others -/

/-- `VL` in bits (R6). -/
def vlBits : VectorLength → Nat
  | .vl256 => 256
  | .vl512 => 512

/-- `KL = VL / 64`, the number of elements (R6). -/
def kl : VectorLength → Nat
  | .vl256 => 4
  | .vl512 => 8

/-- `MAX_VL` in bits: 512 with `AVX512F`, else 256 (R7). -/
def maxVl (c : Config) : Nat :=
  if c.hasAvx512f then 512 else 256

/-- `NVREG`: registers 16 to 31 exist only with `AVX512F` (R13). -/
def nvreg (c : Config) : Nat :=
  if c.hasAvx512f then 32 else 16

/-- `KW` in bits (R16). -/
def kw (c : Config) : Nat :=
  match c.opmaskWidth with
  | .kw16 => 16
  | .kw64 => 64

/-! ### Elements (R9, R12) -/

/-- `qword(x, j)`: element `j` of a vector, bits `64*j+63 : 64*j` (R12). -/
def qword (x : Zmm) (j : Nat) : Qword :=
  x.extractLsb' (64 * j) 64

/-- The vector whose element `j` is `f j`. -/
def ofElems (f : Nat → Qword) : Zmm :=
  f 7 ++ f 6 ++ f 5 ++ f 4 ++ f 3 ++ f 2 ++ f 1 ++ f 0

/-- `x[VL-1:0]`, the `ymm` or `zmm` view of a register (R14). -/
def lowVl (vl : VectorLength) (x : Zmm) : Zmm :=
  ofElems fun j => if j < kl vl then qword x j else 0#64

/-! ### Registers -/

/-- `V[n]` (R12, R13). -/
def readV (s : State) (n : BitVec 5) : Zmm :=
  s.v[n.toNat]'n.isLt

/-- `V[n] <- x`, all `MAX_VL` bits (R12, R15). -/
def writeV (s : State) (n : BitVec 5) (x : Zmm) : State :=
  { s with v := s.v.set n.toNat x n.isLt }

/-- `pc <- target` (R12, R22). -/
def writePc (s : State) (target : Word) : State :=
  { s with pc := target }

/-- `K[n]` (R12, R16). -/
def readK (s : State) (n : BitVec 3) : BitVec 64 :=
  s.k[n.toNat]'n.isLt

/-- `G[n]` (R12, R21). -/
def readG (s : State) (n : BitVec 4) : Word :=
  s.g[n.toNat]'n.isLt

/-- A VEX register number has four bits and names `V[0..15]` (R13, R47). -/
def vexReg (n : BitVec 4) : BitVec 5 :=
  n.setWidth 5

/-! ### Memory (R28, R30, R35) -/

/-- What an address that memory does not list reads as: DESIGN CHOICE (log entry 6), the spec gives memory no
contents at reset (R24). -/
def unlistedByte : Byte := 0#8

/-- The canonical form of memory: addresses strictly rising and below 2^64, no entry equal to what an unlisted
address reads as. -/
def Memory.wf (m : Memory) : Bool :=
  decide (m.Pairwise fun c d => c.1 < d.1) && m.all fun c => decide (c.1 < 2 ^ 64) && c.2 != unlistedByte

/-- The byte memory holds at an address (R35). -/
def Memory.read : Memory → Nat → Byte
  | [], _ => unlistedByte
  | (b, x) :: rest, a => if a = b then x else Memory.read rest a

/-- Put a cell at its place in a canonical memory, in front of what lies above it. -/
def Memory.cons (a : Nat) (x : Byte) (m : Memory) : Memory :=
  if x = unlistedByte then m else (a, x) :: m

/-- Memory with a byte stored. VPERMPD never writes memory (R32): the launcher does, before a run (R100). -/
def Memory.write (a : Nat) (x : Byte) : Memory → Memory
  | [] => Memory.cons a x []
  | (b, y) :: rest =>
    if a < b then Memory.cons a x ((b, y) :: rest)
    else if a = b then Memory.cons a x rest
    else (b, y) :: Memory.write a x rest

/-- Is the address in the range? -/
def inRange (r : AddrRange) (a : Word) : Bool :=
  r.first.toNat ≤ a.toNat && a.toNat ≤ r.last.toNat

/-- The address `k` bytes above `a`, modulo 2^64 (R28; DEDUCED, unsafe, log entry 8). -/
def byteAddr (a : Word) (k : Nat) : Word :=
  a + BitVec.ofNat 64 k

/-- Does an access of `n` bytes at `a` touch the range? -/
def touches (r : AddrRange) (a : Word) (n : Nat) : Bool :=
  (List.range n).any fun k => inRange r (byteAddr a k)

/-- Does a rule of `MemFault` apply to a read of `n` bytes at `a` (R33)? -/
def faultRuleApplies (q : FaultRule) (a : Word) (n : Nat) : Bool :=
  match q.scope with
  | .touching r => touches r a n
  | .startingAt r size => inRange r a && n == size

/-- `MemFault(addr, n)` (R33): the exception of the first rule that applies, or none. The form of the parameter is a
DESIGN CHOICE, safe (log entry 9). -/
def memFault (s : State) (a : Word) (n : Nat) : Option MemException :=
  (s.cfg.memFault.find? fun q => faultRuleApplies q a n).map fun q => q.exception

/-- Does an access of `n` bytes at `a` touch memory with read side effects (R34)? -/
def touchesDevice (s : State) (a : Word) (n : Nat) : Bool :=
  s.cfg.devices.any fun r => touches r a n

/-- `Translate` (R36): the first rule that covers the address, else the address itself (DESIGN CHOICE, safe, log
entry 9). -/
def translate (rules : List TranslateRule) (a : Word) : Word :=
  match rules with
  | [] => a
  | q :: rest => if inRange q.range a then q.target + (a - q.range.first) else translate rest a

/-- The byte at a linear address (R28, R36). -/
def readByte (s : State) (a : Word) : Byte :=
  s.mem.read (translate s.cfg.translation a).toNat

/-- The number whose bytes, least significant first, are these. -/
def leNat : List Byte → Nat
  | [] => 0
  | b :: rest => b.toNat + 256 * leNat rest

/-- `MemRead(addr, n)` without its fault check: the byte at `addr + k` in bits `8k+7:8k` (R12, R30). -/
def memRead (s : State) (a : Word) (n : Nat) : Zmm :=
  BitVec.ofNat 512 (leNat ((List.range n).map fun k => readByte s (byteAddr a k)))

/-! ### Ending a step -/

/-- `raise #UD` (R12, R81): the exception and the unchanged state (R87, R88). -/
def raiseUd (s : State) : Result := .fault (.ud s)

/-- `raise #NM` (R82, R88). -/
def raiseNm (s : State) : Result := .fault (.nm s)

/-- `raise MemFault(e)` (R12, R33, R88). -/
def raiseMem (e : MemException) (s : State) : Result := .fault (.mem e s)

/-- The vector number of a memory exception (the table of 60_exceptions.md section 9). -/
def MemException.vector : MemException → Nat
  | .pageFault _ _ => 14
  | .generalProtection => 13
  | .stackFault => 12
  | .alignmentCheck => 17

/-- The vector number of an exception (R81, R82 and the table of 60_exceptions.md section 9). -/
def Fault.vector : Fault → Nat
  | .ud _ => 6
  | .nm _ => 7
  | .mem e _ => MemException.vector e

/-- The error code of a memory exception (R33): `#PF` has its own, the others `(0)`. Its 32 bits are PRESUMED, unsafe
(log entry 21). -/
def MemException.errorCode : MemException → BitVec 32
  | .pageFault code _ => code
  | .generalProtection => 0#32
  | .stackFault => 0#32
  | .alignmentCheck => 0#32

/-- The error code of an exception: `#UD` and `#NM` have none (R81). -/
def Fault.errorCode : Fault → Option (BitVec 32)
  | .ud _ => none
  | .nm _ => none
  | .mem e _ => some (MemException.errorCode e)

/-- The faulting address that a memory exception records (R33). -/
def MemException.address : MemException → Option Word
  | .pageFault _ a => some a
  | .generalProtection => none
  | .stackFault => none
  | .alignmentCheck => none

/-- The faulting address that an exception records: `#UD` and `#NM` record none (R81). -/
def Fault.address : Fault → Option Word
  | .ud _ => none
  | .nm _ => none
  | .mem e _ => MemException.address e

/-- The state an exception leaves (R88). -/
def Fault.state : Fault → State
  | .ud s => s
  | .nm s => s
  | .mem _ s => s

/-- `V[d] <- new ; pc <- pc + len`, the one change of state (R18, R22, R72 step 6). -/
def complete (s : State) (d : BitVec 5) (new : Zmm) (len : Nat) : Result :=
  .next (writePc (writeV s d new) (s.pc + BitVec.ofNat 64 len))

/-! ### Fetching an instruction -/

/-- The bytes at `pc`, as many as an instruction can have (R41, R57). -/
def fetchBytes (s : State) : List Byte :=
  (List.range fetchWindow).map fun k => readByte s (byteAddr s.pc k)

/-- Can the byte be fetched: `MemFault` reports nothing for it, and it is no device (R34, R95)? -/
def fetchableByte (s : State) (a : Word) : Bool :=
  (memFault s a 1).isNone && !touchesDevice s a 1

/-- Can the `len` bytes at `pc` be fetched (R95, U22)? Refusing where they cannot is a DESIGN CHOICE, safe (log
entry 12). -/
def fetchable (s : State) (len : Nat) : Bool :=
  (List.range len).all fun k => fetchableByte s (byteAddr s.pc k)

/-- Memory with bytes stored from address `a` on, addresses modulo 2^64. -/
def storeBytes (a : Word) : List Byte → Memory → Memory
  | [], m => m
  | b :: rest, m => storeBytes (a + 1#64) rest (m.write a.toNat b)

/-- Is the range free of the `n` bytes at `a`? -/
def clearOf (a : Word) (n : Nat) (r : AddrRange) : Bool :=
  !touches r a n

end Sys2Proof.Machine
end

