-- ==== Sys2Proof/Machine/Illegal.lean ====
section
/-! DEFINITION. The five length values that always raise `#UD`, whatever their other fields (R50, R51, R77, R79):
decided at decode, no operand is read. They do so in every state, outside 64-bit mode too, where only `step` refuses
(DESIGN CHOICE, log entry 17). -/

namespace Sys2Proof.Machine

/-- `VEX.L = 0` (R77). -/
def execIllegalVex128Imm8 (_f : VexImm8) (s : State) : Result := raiseUd s

/-- `EVEX.L'L = 00b`, imm8 form (R79). -/
def execIllegalEvex128Imm8 (_f : EvexImm8) (s : State) : Result := raiseUd s

/-- `EVEX.L'L = 00b`, vector-control form (R79). -/
def execIllegalEvex128Vec (_f : EvexVec) (s : State) : Result := raiseUd s

/-- `EVEX.L'L = 11b`, imm8 form (R51). -/
def execIllegalEvexLl11Imm8 (_f : EvexImm8) (s : State) : Result := raiseUd s

/-- `EVEX.L'L = 11b`, vector-control form (R51). -/
def execIllegalEvexLl11Vec (_f : EvexVec) (s : State) : Result := raiseUd s

end Sys2Proof.Machine
end

