-- ==== Sys2Proof/Machine/Flags.lean ====
section
/-! DEFINITION. The status conditions of the machine. VPERMPD reads and writes no flag (R20), so there is no flag to
compute: what stands here is the status state that every form leaves alone, and the feature and enable conditions
that R82 evaluates. -/

namespace Sys2Proof.Machine

/-- The flags and floating-point status that VPERMPD neither reads nor writes (R20). -/
def statusState (s : State) : BitVec 64 × BitVec 32 × X87 :=
  (s.rflags, s.mxcsr, s.x87)

/-- Row 1: `HAS_AVX2 and OS_AVX` (R82). -/
def avx2Usable (c : Config) : Bool :=
  c.hasAvx2 && c.osAvx

/-- Rows 3 and 5: `HAS_AVX512F and OS_AVX512` (R82). -/
def avx512fUsable (c : Config) : Bool :=
  c.hasAvx512f && c.osAvx512

/-- Rows 2 and 4: `HAS_AVX512F and HAS_AVX512VL and OS_AVX512` (R82). -/
def avx512vlUsable (c : Config) : Bool :=
  c.hasAvx512f && c.hasAvx512vl && c.osAvx512

/-- What R72 does before it reads an operand, in the order of R86: outside 64-bit mode the form is refused (R58); an
encoding-level `#UD` (R50, R51); a missing feature or disabled state, `#UD`; `CR0.TS = 1`, `#NM` (R82; raising it is a DESIGN CHOICE,
unsafe, log entry 10). -/
def afterChecks (s : State) (reserved usable : Bool) (k : Result) : Result :=
  if s.cfg.mode64 then
    if reserved then raiseUd s
    else if usable then
      if s.cfg.taskSwitched then raiseNm s else k
    else raiseUd s
  else .refused .notMode64

end Sys2Proof.Machine
end

