-- ==== Sys2Proof/Machine/Operands.lean ====
section
/-! DEFINITION. The operand forms: reserved fields (R50, R51), the effective address (R29, R45), the source operand
with embedded broadcast (R25, R27, R33), and the write mask (R65). -/

namespace Sys2Proof.Machine

/-! ### Reserved fields -/

/-- The VEX form's reserved fields raise `#UD` when `v~ != 1111b` (R50, R78). -/
def vexReserved (f : VexImm8) : Bool :=
  f.vvvv != 0b1111#4

/-- The reserved EVEX fields of every form, in the order of R55: `P0[3:2]`, `P1[2]`, zeroing without a mask,
broadcast of a register (R51). The first two are DEDUCED to be `#UD` on every machine modelled: unsafe for a processor
with later extensions (log entry 15). -/
def evexReserved (c : EvexControl) (srcIsReg : Bool) : Bool :=
  c.p0Reserved != 0#2 || !c.p1Fixed || (c.z && c.aaa == 0#3) || (c.b && srcIsReg)

/-- The reserved fields of an EVEX imm8 form: also `v~` and `V'~` (R50, R51, R80). -/
def evexImm8Reserved (f : EvexImm8) : Bool :=
  f.vvvv != 0b1111#4 || !f.vPrime || evexReserved f.ctl f.src.isReg

/-- The reserved fields of an EVEX vector-control form; `vvvv` is an operand (R80). -/
def evexVecReserved (f : EvexVec) : Bool :=
  evexReserved f.ctl f.src.isReg

/-! ### The effective address (R29) -/

/-- `N`, the scale of a `disp8` under EVEX (R45): 8 with broadcast, else `VL / 8`. -/
def disp8Scale (vl : VectorLength) (b : Bool) : Nat :=
  if b then 8 else vlBits vl / 8

/-- `d` of R29, with `n` the scale of a `disp8`. -/
def dispValue (n : Nat) : Disp → Word
  | .none => 0#64
  | .disp8 d => d.signExtend 64 * BitVec.ofNat 64 n
  | .disp32 d => d.signExtend 64

/-- `index_val` of R29: index 0100b means that there is no index. -/
def indexValue (s : State) (scale : BitVec 2) (index : BitVec 4) : Word :=
  if index == 0b0100#4 then 0#64 else readG s index <<< scale.toNat

/-- `EffAddr()` (R29) for an instruction of `len` bytes whose `disp8` is scaled by `n`. -/
def effAddr (s : State) (len n : Nat) : MemOperand → Word
  | .ripRel d => s.pc + BitVec.ofNat 64 len + d.signExtend 64
  | .base g d => readG s g + dispValue n d
  | .sib scale index g d => readG s g + indexValue s scale index + dispValue n d
  | .sibNoBase scale index d => indexValue s scale index + d.signExtend 64

/-! ### The source operand (R25, R27) -/

/-- What reading the source operand gives. -/
inductive SrcRead where
  /-- The value, `VL` bits. -/
  | value (t : Zmm)
  /-- `MemFault` reports an exception (R33). -/
  | fault (e : MemException)
  /-- The operand touches device memory (R34). -/
  | device
deriving DecidableEq, Repr

/-- The checked read of `n` bytes: `MemFault` over all of them, whatever the write mask (R33), then the device
regions (R34; in this order by DESIGN CHOICE, safe, log entry 11). -/
def checkedRead (s : State) (a : Word) (n : Nat) (value : Zmm) : SrcRead :=
  match memFault s a n with
  | some e => .fault e
  | none => if touchesDevice s a n then .device else .value value

/-- The bytes of a memory operand: 8 with broadcast, else `VL / 8` (R25). -/
def operandBytes (vl : VectorLength) (b : Bool) : Nat :=
  if b then 8 else vlBits vl / 8

/-- The element of an `m64bcst`, replicated to every position (R27). -/
def broadcast (vl : VectorLength) (e : Qword) : Zmm :=
  ofElems fun j => if j < kl vl then e else 0#64

/-- The value of a memory operand at `a` (R27). -/
def memValue (s : State) (vl : VectorLength) (b : Bool) (a : Word) : Zmm :=
  if b then broadcast vl (qword (memRead s a 8) 0) else memRead s a (vlBits vl / 8)

/-- `LoadSrc` (R27), for an instruction of `len` bytes whose `disp8` is scaled by `n`. -/
def loadSrc (s : State) (vl : VectorLength) (b : Bool) (len n : Nat) : RmOperand 5 → SrcRead
  | .reg r => .value (lowVl vl (readV s r))
  | .mem m =>
    let a := effAddr s len n m
    checkedRead s a (operandBytes vl b) (memValue s vl b a)

/-- Go on with the source's value, or raise what its read raises (R72 step 4). -/
def withSource (s : State) (r : SrcRead) (k : Zmm → Result) : Result :=
  match r with
  | .value t => k t
  | .fault e => raiseMem e s
  | .device => .refused .deviceMemory

/-! ### The write mask (R65) -/

/-- `usemask`: `aaa = 000b` selects no write mask (R17, R65). -/
def useMask (c : EvexControl) : Bool :=
  c.aaa != 0#3

end Sys2Proof.Machine
end

