-- ==== Sys2Proof/Machine/Permute.lean ====
section
/-! DEFINITION. The data path every form shares: the permutation by immediate (R63), by an index vector (R73), and
write-masking with the zeroing above `VL` (R64). -/

namespace Sys2Proof.Machine

/-- `c` of `PermImm`: `imm[2*(j mod 4)+1 : 2*(j mod 4)]` (R48, R63). -/
def immIndex (imm : Byte) (j : Nat) : Nat :=
  (imm.extractLsb' (2 * (j % 4)) 2).toNat

/-- `PermImm` (R63): an element never crosses between the two 256-bit halves. -/
def permImm (vl : VectorLength) (t : Zmm) (imm : Byte) : Zmm :=
  ofElems fun j => if j < kl vl then qword t (4 * (j / 4) + immIndex imm j) else 0#64

/-- The number of index bits, `log2 KL` (R73). -/
def indexBits : VectorLength → Nat
  | .vl256 => 2
  | .vl512 => 3

/-- `c` of `PermVec`: the low index bits of element `j` of the index vector (R73). -/
def vecIndex (vl : VectorLength) (idx : Zmm) (j : Nat) : Nat :=
  ((qword idx j).extractLsb' 0 (indexBits vl)).toNat

/-- `PermVec` (R73). -/
def permVec (vl : VectorLength) (idx t : Zmm) : Zmm :=
  ofElems fun j => if j < kl vl then qword t (vecIndex vl idx j) else 0#64

/-- `ApplyMask` (R64): merging keeps the old element, zeroing clears it, and everything above `VL` is 0. -/
def applyMask (vl : VectorLength) (old tmp : Zmm) (usemask : Bool) (kval : BitVec 64) (z : Bool) : Zmm :=
  ofElems fun j =>
    if j < kl vl then
      if !usemask || kval.getLsbD j then qword tmp j
      else if z then 0#64 else qword old j
    else 0#64

/-- The masked write-back of an EVEX form: `ApplyMask` with the mask `K[aaa]`, then the completion (R65, R72). -/
def completeMasked (s : State) (vl : VectorLength) (d : BitVec 5) (c : EvexControl) (tmp : Zmm) (len : Nat) : Result :=
  complete s d (applyMask vl (readV s d) tmp (useMask c) (readK s c.aaa) c.z) len

/-- What the two EVEX imm8 forms share (R70, R71). -/
def runEvexImm8 (vl : VectorLength) (usable : Bool) (f : EvexImm8) (s : State) : Result :=
  afterChecks s (evexImm8Reserved f) usable
    (withSource s (loadSrc s vl f.ctl.b f.length (disp8Scale vl f.ctl.b) f.src) fun t =>
      completeMasked s vl f.dest f.ctl (permImm vl t f.imm) f.length)

/-- What the two EVEX vector-control forms share (R74, R75). -/
def runEvexVec (vl : VectorLength) (usable : Bool) (f : EvexVec) (s : State) : Result :=
  afterChecks s (evexVecReserved f) usable
    (withSource s (loadSrc s vl f.ctl.b f.length (disp8Scale vl f.ctl.b) f.src) fun t =>
      completeMasked s vl f.dest f.ctl (permVec vl (lowVl vl (readV s f.idx)) t) f.length)

end Sys2Proof.Machine
end

