-- ==== Sys2Proof/Machine/VpermpdImm8.lean ====
section
/-! DEFINITION. The imm8 forms, rows 1 to 3 of the opcode table (R69, R70, R71). -/

namespace Sys2Proof.Machine

/-- `VPERMPD ymm1, ymm2/m256, imm8`, row 1 (R69): no mask, no broadcast, `disp8` not scaled (R45). -/
def execVpermpdVex256Imm8 (f : VexImm8) (s : State) : Result :=
  afterChecks s (vexReserved f) (avx2Usable s.cfg)
    (withSource s (loadSrc s .vl256 false f.length 1 (f.src.mapReg vexReg)) fun t =>
      complete s (vexReg f.dest)
        (applyMask .vl256 (readV s (vexReg f.dest)) (permImm .vl256 t f.imm) false 0#64 false) f.length)

/-- `VPERMPD ymm1 {k1}{z}, ymm2/m256/m64bcst, imm8`, row 2 (R70). -/
def execVpermpdEvex256Imm8 (f : EvexImm8) (s : State) : Result :=
  runEvexImm8 .vl256 (avx512vlUsable s.cfg) f s

/-- `VPERMPD zmm1 {k1}{z}, zmm2/m512/m64bcst, imm8`, row 3 (R71). -/
def execVpermpdEvex512Imm8 (f : EvexImm8) (s : State) : Result :=
  runEvexImm8 .vl512 (avx512fUsable s.cfg) f s

end Sys2Proof.Machine
end

