-- ==== Sys2Proof/Machine/VpermpdVec.lean ====
section
/-! DEFINITION. The vector-control forms, rows 4 and 5 of the opcode table (R74, R75). -/

namespace Sys2Proof.Machine

/-- `VPERMPD ymm1 {k1}{z}, ymm2, ymm3/m256/m64bcst`, row 4 (R74). -/
def execVpermpdEvex256Vec (f : EvexVec) (s : State) : Result :=
  runEvexVec .vl256 (avx512vlUsable s.cfg) f s

/-- `VPERMPD zmm1 {k1}{z}, zmm2, zmm3/m512/m64bcst`, row 5 (R75). -/
def execVpermpdEvex512Vec (f : EvexVec) (s : State) : Result :=
  runEvexVec .vl512 (avx512fUsable s.cfg) f s

end Sys2Proof.Machine
end

