-- ==== Sys2Proof/Machine/Dispatch.lean ====
section
/-! DEFINITION. One arm for each constructor of `Instr`. -/

namespace Sys2Proof.Machine

/-- The meaning of an instruction at a state. -/
def exec (i : Instr) (s : State) : Host.Outcome State Fault Refusal :=
  match i with
  | .vpermpdVex256Imm8 f => Sys2Proof.Machine.execVpermpdVex256Imm8 f s
  | .vpermpdEvex256Imm8 f => Sys2Proof.Machine.execVpermpdEvex256Imm8 f s
  | .vpermpdEvex512Imm8 f => Sys2Proof.Machine.execVpermpdEvex512Imm8 f s
  | .vpermpdEvex256Vec f => Sys2Proof.Machine.execVpermpdEvex256Vec f s
  | .vpermpdEvex512Vec f => Sys2Proof.Machine.execVpermpdEvex512Vec f s
  | .illegalVex128Imm8 f => Sys2Proof.Machine.execIllegalVex128Imm8 f s
  | .illegalEvex128Imm8 f => Sys2Proof.Machine.execIllegalEvex128Imm8 f s
  | .illegalEvex128Vec f => Sys2Proof.Machine.execIllegalEvex128Vec f s
  | .illegalEvexLl11Imm8 f => Sys2Proof.Machine.execIllegalEvexLl11Imm8 f s
  | .illegalEvexLl11Vec f => Sys2Proof.Machine.execIllegalEvexLl11Vec f s

end Sys2Proof.Machine
end

