-- ==== Sys2Proof/Machine/Fetch.lean ====
section
/-! DEFINITION. What `step` does with a decoder's answer (R72 steps 1 and 2), and how a word is placed where the next
step fetches it. -/

namespace Sys2Proof.Machine

/-- The refusal of a byte string the decoder rejects (R29, R57, R62). -/
def rejectReason : DecodeReject → Refusal
  | .notVpermpd => .notVpermpd
  | .addressOverride => .addressOverride
  | .truncated => .tooLong

/-- Run what was decoded, provided that its bytes can be fetched (R72, R95, U22). -/
def runDecoded (d : Decoded) (s : State) : Result :=
  match d with
  | .instr i _ => if fetchable s i.length then exec i s else .refused .fetchUnreadable
  | .ud n => if fetchable s n then raiseUd s else .refused .fetchUnreadable
  | .rejected r => .refused (rejectReason r)

/-- The parameters a fetch at `a` needs: 64-bit mode, and the bytes of the fetch window translated to themselves, in
no device region and under no rule of `MemFault`. The other rules stay as they are. -/
def fetchConfig (a : Word) (c : Config) : Config :=
  { c with
    mode64 := true
    memFault := c.memFault.filter fun q =>
      (List.range fetchWindow).all fun k => !faultRuleApplies q (byteAddr a k) 1
    devices := c.devices.filter (clearOf a fetchWindow)
    translation := c.translation.filter fun q => clearOf a fetchWindow q.range }

/-- The state with these bytes at `pc`, where the next step fetches. -/
def placeAtPc (bs : List Byte) (s : State) : State :=
  { s with mem := storeBytes s.pc bs s.mem, cfg := fetchConfig s.pc s.cfg }

end Sys2Proof.Machine
end

