-- ==== Sys2Proof/Machine/Step.lean ====
section
/-! DEFINITION. One step of the machine (R72). -/

namespace Sys2Proof.Machine

/-- One step at `pc` (R72): in 64-bit mode (R58), fetch, decode and run. -/
def step (s : State) : Host.Outcome State Fault Refusal :=
  if s.cfg.mode64 then runDecoded (decode (fetchBytes s)) s else .refused .notMode64

/-- The state in which the next step fetches the word `w` of `nbits` bits, numbered as spec/opcode_table.json numbers
it: what the launcher does when it lays a program at `pc` (R100; log entry 7). -/
def State.withFetchWord (s : State) (nbits w : Nat) : State :=
  placeAtPc (tableWordBytes nbits w) s

end Sys2Proof.Machine
end

