-- ==== Sys2Proof/Safety.lean ====
section
/-! DEFINITION. What counts as a sound state and a safe run (R96, R100), and the words that claims are stated in: the
operands of the five forms as R69 to R75 list them, a source element read straight from the register or from memory's
bytes, and what an instruction leaves unchanged (R18). -/

namespace Sys2Proof.Machine

/-! ### The invariant -/

/-- What every state of the machine satisfies: memory is in its canonical form, and the bits and registers that the
configured machine lacks are 0 (R7, R13, R16). -/
structure Inv (s : State) : Prop where
  /-- Memory is canonical. -/
  memory : s.mem.wf = true
  /-- No vector register has bits from `MAX_VL` up (R7, R13). -/
  vectorWidth : ∀ (n : BitVec 5) (b : Nat), maxVl s.cfg ≤ b → (readV s n).getLsbD b = false
  /-- There is no register from `NVREG` up (R13). -/
  vectorCount : ∀ n : BitVec 5, nvreg s.cfg ≤ n.toNat → readV s n = 0#512
  /-- No opmask register has bits from `KW` up (R16). -/
  opmaskWidth : ∀ (n : BitVec 3) (b : Nat), kw s.cfg ≤ b → (readK s n).getLsbD b = false

/-! ### Runs (R96, R100) -/

/-- The outcome of a run (R96, R100). -/
inductive RunOutcome where
  /-- `pc` has reached the end of the program. -/
  | successful (s : State)
  /-- A step raised: the exception and the unchanged state. -/
  | faulted (x : Fault)
  /-- A step met what the model refuses: neither success nor fault. -/
  | stuck (r : Refusal)
  /-- The steps allowed are used up. -/
  | unfinished (s : State)
deriving DecidableEq, Repr

/-- Run until `pc` is `last`, for at most `n` steps (R96). -/
def runTo (last : Word) : Nat → State → RunOutcome
  | 0, s => if s.pc == last then .successful s else .unfinished s
  | n + 1, s =>
    if s.pc == last then .successful s
    else
      match step s with
      | .next t => runTo last n t
      | .fault x => .faulted x
      | .refused r => .stuck r

/-- Is the byte string the encoding of one row of the opcode table, and nothing more? -/
def isEncoding (bs : List Byte) : Bool :=
  match decode bs with
  | .instr _ rest => rest.isEmpty
  | .ud _ => false
  | .rejected _ => false

/-- A program (R96): a finite sequence of VPERMPD encodings, laid out contiguously from the address `start` (`A0`). -/
structure Program where
  start     : Word
  encodings : List (List Byte)
deriving DecidableEq, Repr

/-- The sum of the lengths of a program's instructions (R96). -/
def Program.size (p : Program) : Nat :=
  (p.encodings.map List.length).sum

/-- The address just past the last instruction, `A0` plus the sum of the lengths (R96). -/
def Program.last (p : Program) : Word :=
  p.start + BitVec.ofNat 64 p.size

/-- Are all of a program's byte strings encodings, and does it end below 2^64 (D8 admits no program across the wrap)?
DESIGN CHOICE, safe (log entry 22): the always-`#UD` rows are encodings too, an encoding behind prefixes is none. -/
def Program.wf (p : Program) : Bool :=
  p.encodings.all isEncoding && decide (p.start.toNat + p.size < 2 ^ 64)

/-- Are a program's bytes in memory, one encoding after the other from `start` on? -/
def Program.laidOutIn (p : Program) (s : State) : Bool :=
  ((List.range p.size).map fun k => readByte s (byteAddr p.start k)) == p.encodings.flatten

/-- The run of a program: at most one step for each instruction (R96). -/
def Program.run (p : Program) (s : State) : RunOutcome :=
  runTo p.last p.encodings.length s

/-! ### The operands of the five forms -/

/-- The operands of a form (the "Operands" entries of R69 to R75). -/
structure FormView where
  /-- The vector length. -/
  vl     : VectorLength
  /-- The destination register. -/
  dest   : BitVec 5
  /-- The index register of a vector-control form. -/
  idx    : Option (BitVec 5)
  /-- The source, or the data of a vector-control form. -/
  src    : RmOperand 5
  /-- Is a memory source an `m64bcst`? -/
  bcast  : Bool
  /-- The bytes read of a memory source (R25). -/
  bytes  : Nat
  /-- The scale `N` of a `disp8` (R45). -/
  scale  : Nat
  /-- The opmask register; 000 is no write mask (R17). -/
  aaa    : BitVec 3
  /-- Zeroing-masking. -/
  z      : Bool
deriving DecidableEq, Repr

/-- The view of an EVEX form of vector length `vl`, whose full memory operand has `full` bytes. -/
def evexView (vl : VectorLength) (full : Nat) (dest : BitVec 5) (idx : Option (BitVec 5)) (src : RmOperand 5)
    (c : EvexControl) : FormView :=
  { vl := vl, dest := dest, idx := idx, src := src, bcast := c.b
    bytes := if c.b then 8 else full
    scale := if c.b then 8 else full
    aaa := c.aaa, z := c.z }

/-- The operands of an instruction; the illegal rows have none. -/
def viewOf : Instr → Option FormView
  | .vpermpdVex256Imm8 f =>
    some { vl := .vl256, dest := f.dest.setWidth 5, idx := none
           src := f.src.mapReg fun n => n.setWidth 5
           bcast := false, bytes := 32, scale := 1, aaa := 0#3, z := false }
  | .vpermpdEvex256Imm8 f => some (evexView .vl256 32 f.dest none f.src f.ctl)
  | .vpermpdEvex512Imm8 f => some (evexView .vl512 64 f.dest none f.src f.ctl)
  | .vpermpdEvex256Vec f => some (evexView .vl256 32 f.dest (some f.idx) f.src f.ctl)
  | .vpermpdEvex512Vec f => some (evexView .vl512 64 f.dest (some f.idx) f.src f.ctl)
  | .illegalVex128Imm8 _ => none
  | .illegalEvex128Imm8 _ => none
  | .illegalEvex128Vec _ => none
  | .illegalEvexLl11Imm8 _ => none
  | .illegalEvexLl11Vec _ => none

/-- The feature and enable condition of R82 for an instruction's row. -/
def Usable (c : Config) : Instr → Prop
  | .vpermpdVex256Imm8 _ => c.hasAvx2 = true ∧ c.osAvx = true
  | .vpermpdEvex256Imm8 _ => c.hasAvx512f = true ∧ c.hasAvx512vl = true ∧ c.osAvx512 = true
  | .vpermpdEvex512Imm8 _ => c.hasAvx512f = true ∧ c.osAvx512 = true
  | .vpermpdEvex256Vec _ => c.hasAvx512f = true ∧ c.hasAvx512vl = true ∧ c.osAvx512 = true
  | .vpermpdEvex512Vec _ => c.hasAvx512f = true ∧ c.osAvx512 = true
  | .illegalVex128Imm8 _ => False
  | .illegalEvex128Imm8 _ => False
  | .illegalEvex128Vec _ => False
  | .illegalEvexLl11Imm8 _ => False
  | .illegalEvexLl11Vec _ => False

/-- The general registers that form an address (R19, R29); index 0100b names none. -/
def addressRegs : MemOperand → List (BitVec 4)
  | .ripRel _ => []
  | .base g _ => [g]
  | .sib _ index g _ => if index = 0b0100#4 then [g] else [g, index]
  | .sibNoBase _ index _ => if index = 0b0100#4 then [] else [index]

/-! ### The source, read straight from the state -/

/-- The 64-bit element whose least significant byte is at `a` (R30). -/
def leQword (s : State) (a : Word) : Qword :=
  readByte s (a + 7) ++ readByte s (a + 6) ++ readByte s (a + 5) ++ readByte s (a + 4) ++
    readByte s (a + 3) ++ readByte s (a + 2) ++ readByte s (a + 1) ++ readByte s a

/-- Element `j` of the source operand: of the register, or of the bytes at the operand's address, where a broadcast
has its one element at every position (R27). -/
def sourceElem (s : State) (len scale : Nat) (bcast : Bool) (src : RmOperand 5) (j : Nat) : Qword :=
  match src with
  | .reg n => (readV s n).extractLsb' (64 * j) 64
  | .mem m => leQword s (effAddr s len scale m + BitVec.ofNat 64 (if bcast then 0 else 8 * j))

/-- Does the read of a memory source meet neither a fault nor a device (R33, R34)? A register source always can be
read. -/
def SourceReadable (s : State) (len scale bytes : Nat) (src : RmOperand 5) : Prop :=
  match src with
  | .reg _ => True
  | .mem m =>
    memFault s (effAddr s len scale m) bytes = none ∧ touchesDevice s (effAddr s len scale m) bytes = false

/-- A destination element under the write mask (R64, R65): the new value where there is no mask or its bit is 1, else
the old value, or 0 with zeroing-masking. -/
def maskedElem (s : State) (aaa : BitVec 3) (z : Bool) (j : Nat) (old new : Qword) : Qword :=
  if aaa = 0#3 ∨ (readK s aaa).getLsbD j = true then new else if z = true then 0#64 else old

/-! ### What an instruction leaves unchanged (R18) -/

/-- `t` differs from `s` in no more than `V[d]` and `pc`. -/
structure OnlyWrites (s t : State) (d : BitVec 5) : Prop where
  /-- Every other vector register. -/
  vectors : ∀ n : BitVec 5, n ≠ d → readV t n = readV s n
  /-- Every opmask register. -/
  opmasks : ∀ n : BitVec 3, readK t n = readK s n
  /-- Every general register. -/
  generals : ∀ n : BitVec 4, readG t n = readG s n
  /-- Every byte of memory. -/
  bytes : ∀ a : Word, readByte t a = readByte s a
  /-- Memory as data. -/
  memory : t.mem = s.mem
  /-- Flags, `MXCSR` and the x87 state (R20). -/
  status : statusState t = statusState s
  /-- The parameters (R23). -/
  config : t.cfg = s.cfg

/-- The state with other flags, `MXCSR` and x87 state. -/
def withStatus (r : BitVec 64) (m : BitVec 32) (x : X87) (s : State) : State :=
  { s with rflags := r, mxcsr := m, x87 := x }

/-- The state with other opmask registers. -/
def withMasks (masks : Vector (BitVec 64) 8) (s : State) : State :=
  { s with k := masks }

/-- The outcome with every state in it changed. -/
def mapResult (h : State → State) : Result → Result
  | .next s => .next (h s)
  | .fault (.ud s) => .fault (.ud (h s))
  | .fault (.nm s) => .fault (.nm (h s))
  | .fault (.mem e s) => .fault (.mem e (h s))
  | .refused r => .refused r

/-- Do two states agree on everything an instruction with these operands reads (R19)? The parameters, `pc`, the source
register or the operand's bytes, the general registers of its address, the index register, the selected bits of the
opmask, and under merging-masking the destination's old value; of vector registers only the low `VL` bits. -/
structure AgreeOnReads (w : FormView) (s t : State) (len : Nat) : Prop where
  config : t.cfg = s.cfg
  pc : t.pc = s.pc
  source : ∀ n, w.src = .reg n → ∀ j, j < kl w.vl → qword (readV t n) j = qword (readV s n) j
  operand : ∀ m, w.src = .mem m → ∀ k, k < w.bytes →
    readByte t (effAddr s len w.scale m + BitVec.ofNat 64 k) = readByte s (effAddr s len w.scale m + BitVec.ofNat 64 k)
  address : ∀ m, w.src = .mem m → ∀ g ∈ addressRegs m, readG t g = readG s g
  index : ∀ n, w.idx = some n → ∀ j, j < kl w.vl → qword (readV t n) j = qword (readV s n) j
  mask : w.aaa ≠ 0#3 → ∀ j, j < kl w.vl → (readK t w.aaa).getLsbD j = (readK s w.aaa).getLsbD j
  merged : w.aaa ≠ 0#3 → w.z = false → ∀ j, j < kl w.vl → qword (readV t w.dest) j = qword (readV s w.dest) j

end Sys2Proof.Machine
end

