-- ==== Sys2Proof/Certificates/Slice0/Obligations.lean ====
section
/-! DEFINITION. The statements for the provers, each formalising what its docstring cites. -/

open Sys2Proof Sys2Proof.Machine

/-! ### Encoding -/

/-- Encodings that the spec writes out decode to the instruction it says they are: the examples of R42, R43, R45 and
R47 and the vectors H1 and H2. -/
def Obligations.SpecWordsDecode : Prop :=
  decode [0xC4, 0xE3, 0xFD, 0x01, 0xCA, 0x1B] =
      .instr (.vpermpdVex256Imm8 { dest := 1, src := .reg 2, imm := 0x1B, vvvv := 15 }) [] ∧
  decode [0x62, 0xF3, 0xFD, 0x28, 0x01, 0xCA, 0x1B] =
      .instr (.vpermpdEvex256Imm8 { dest := 1, src := .reg 2, imm := 0x1B, ctl := ⟨0, false, false, 0, true⟩,
                                    vvvv := 15, vPrime := true }) [] ∧
  decode [0x62, 0x23, 0xFD, 0xCB, 0x01, 0xCA, 0x1B] =
      .instr (.vpermpdEvex512Imm8 { dest := 25, src := .reg 18, imm := 0x1B, ctl := ⟨3, true, false, 0, true⟩,
                                    vvvv := 15, vPrime := true }) [] ∧
  decode [0x62, 0xF2, 0xED, 0x28, 0x16, 0x4C, 0xC8, 0x01] =
      .instr (.vpermpdEvex256Vec { dest := 1, idx := 2, src := .mem (.sib 3 1 0 (.disp8 1)),
                                   ctl := ⟨0, false, false, 0, true⟩ }) [] ∧
  decode [0x62, 0x32, 0x8D, 0x47, 0x16, 0xCB] =
      .instr (.vpermpdEvex512Vec { dest := 9, idx := 30, src := .reg 19, ctl := ⟨7, false, false, 0, true⟩ }) [] ∧
  decode [0xC4, 0xE3, 0xFD, 0x01, 0x0D, 0x00, 0x01, 0x00, 0x00, 0x1B] =
      .instr (.vpermpdVex256Imm8 { dest := 1, src := .mem (.ripRel 0x100), imm := 0x1B, vvvv := 15 }) [] ∧
  decode [0xC4, 0x03, 0xFD, 0x01, 0x4C, 0xA5, 0x40, 0x1B] =
      .instr (.vpermpdVex256Imm8 { dest := 9, src := .mem (.sib 2 12 13 (.disp8 0x40)), imm := 0x1B, vvvv := 15 }) []

/-- Decoding the encoding of any instruction that has one, with every operand and reserved field at any value and any
bytes behind it, gives that instruction and those bytes (R41 to R47, R54, R55). -/
def Obligations.DecodeOfEncode : Prop :=
  ∀ (i : Instr) (rest : List Byte), i.encodable = true → decode (encode i ++ rest) = .instr i rest

/-- R57: an encoding has `len = P + 1 + 1 + S + D + I` bytes, at least 6 and at most 11 under VEX, 7 and 12 in the
EVEX imm8 forms, 6 and 11 in the EVEX vector-control forms, bounds that are attained, and so never more than 15. -/
def Obligations.EncodingHasLengthLen : Prop :=
  (∀ i : Instr, (encode i).length = i.length ∧ i.length ≤ 15) ∧
  (∀ (n : BitVec 5) (d8 : BitVec 8) (d32 : BitVec 32) (g ix : BitVec 4) (sc : BitVec 2),
    (RmOperand.reg n).length = 0 ∧ (RmOperand.mem (w := 5) (.ripRel d32)).length = 0 + 4 ∧
    (RmOperand.mem (w := 5) (.base g .none)).length = 0 + 0 ∧
    (RmOperand.mem (w := 5) (.base g (.disp8 d8))).length = 0 + 1 ∧
    (RmOperand.mem (w := 5) (.base g (.disp32 d32))).length = 0 + 4 ∧
    (RmOperand.mem (w := 5) (.sib sc ix g .none)).length = 1 + 0 ∧
    (RmOperand.mem (w := 5) (.sib sc ix g (.disp8 d8))).length = 1 + 1 ∧
    (RmOperand.mem (w := 5) (.sib sc ix g (.disp32 d32))).length = 1 + 4 ∧
    (RmOperand.mem (w := 5) (.sibNoBase sc ix d32)).length = 1 + 4) ∧
  (∀ f : VexImm8, (Instr.vpermpdVex256Imm8 f).length = 3 + 1 + 1 + f.src.length + 1 ∧
    6 ≤ (Instr.vpermpdVex256Imm8 f).length ∧ (Instr.vpermpdVex256Imm8 f).length ≤ 11) ∧
  (∀ f : EvexImm8, (Instr.vpermpdEvex256Imm8 f).length = 4 + 1 + 1 + f.src.length + 1 ∧
    7 ≤ (Instr.vpermpdEvex256Imm8 f).length ∧ (Instr.vpermpdEvex256Imm8 f).length ≤ 12 ∧
    (Instr.vpermpdEvex512Imm8 f).length = (Instr.vpermpdEvex256Imm8 f).length) ∧
  (∀ f : EvexVec, (Instr.vpermpdEvex256Vec f).length = 4 + 1 + 1 + f.src.length ∧
    6 ≤ (Instr.vpermpdEvex256Vec f).length ∧ (Instr.vpermpdEvex256Vec f).length ≤ 11 ∧
    (Instr.vpermpdEvex512Vec f).length = (Instr.vpermpdEvex256Vec f).length) ∧
  (∃ f g : VexImm8, (Instr.vpermpdVex256Imm8 f).wellFormed = true ∧ (Instr.vpermpdVex256Imm8 f).length = 6 ∧
    (Instr.vpermpdVex256Imm8 g).wellFormed = true ∧ (Instr.vpermpdVex256Imm8 g).length = 11) ∧
  (∃ f g : EvexImm8, (Instr.vpermpdEvex256Imm8 f).wellFormed = true ∧ (Instr.vpermpdEvex256Imm8 f).length = 7 ∧
    (Instr.vpermpdEvex256Imm8 g).wellFormed = true ∧ (Instr.vpermpdEvex256Imm8 g).length = 12) ∧
  (∃ f g : EvexVec, (Instr.vpermpdEvex256Vec f).wellFormed = true ∧ (Instr.vpermpdEvex256Vec f).length = 6 ∧
    (Instr.vpermpdEvex256Vec g).wellFormed = true ∧ (Instr.vpermpdEvex256Vec g).length = 11)

/-- The decode procedures R54 and R55 and the masks of spec/opcode_table.json say the same: an instruction is decoded
only from bytes its row accepts, and bytes that a row accepts (12 or more, so that none runs out) decode to an
instruction of that row. -/
def Obligations.DecoderFollowsOpcodeTable : Prop :=
  ∀ bs : List Byte,
    (∀ i rest, decode bs = .instr i rest → i.row.accepts bs = true) ∧
    (∀ j : Instr, 12 ≤ bs.length → j.row.accepts bs = true →
      ∃ i rest, decode bs = .instr i rest ∧ i.row = j.row)

/-- No byte string is accepted by two different rows of spec/opcode_table.json. -/
def Obligations.OpcodeRowsDoNotOverlap : Prop :=
  ∀ (i j : Instr) (bs : List Byte), i.row.accepts bs = true → j.row.accepts bs = true → i.row = j.row

/-- R53: `LOCK`, `66h`, `F2h`, `F3h` or `REX` bytes before a VEX or EVEX encoded VPERMPD make the step raise `#UD`;
with segment-override or address-size prefixes before it the step is refused. -/
def Obligations.PrefixesRaiseUdOrAreRefused : Prop :=
  ∀ (ps : List Byte) (i : Instr) (rest : List Byte) (s : State),
    s.cfg.mode64 = true → i.encodable = true → ps ≠ [] → fetchBytes s = ps ++ encode i ++ rest →
    ((∀ p ∈ ps, p = 0xF0#8 ∨ p = 0x66#8 ∨ p = 0xF2#8 ∨ p = 0xF3#8 ∨ (0x40 ≤ p.toNat ∧ p.toNat ≤ 0x4F)) →
      fetchable s (ps.length + i.length) = true → step s = .fault (.ud s)) ∧
    ((∀ p ∈ ps, p ∈ [0x2E#8, 0x36#8, 0x3E#8, 0x26#8, 0x64#8, 0x65#8, 0x67#8]) →
      step s = .refused .addressOverride)

/-- Where prefixes of both kinds stand before the instruction, the step is refused: the model's choice (log entry 13),
R53 says `#UD` of the one kind and refuses the other. -/
def Obligations.MixedPrefixesAreRefused : Prop :=
  ∀ (ps : List Byte) (i : Instr) (rest : List Byte) (s : State),
    s.cfg.mode64 = true → i.encodable = true → fetchBytes s = ps ++ encode i ++ rest →
    (∀ p ∈ ps, p = 0xF0#8 ∨ p = 0x66#8 ∨ p = 0xF2#8 ∨ p = 0xF3#8 ∨ (0x40 ≤ p.toNat ∧ p.toNat ≤ 0x4F) ∨
      p ∈ [0x2E#8, 0x36#8, 0x3E#8, 0x26#8, 0x64#8, 0x65#8, 0x67#8]) →
    (∃ p ∈ ps, p ∈ [0x2E#8, 0x36#8, 0x3E#8, 0x26#8, 0x64#8, 0x65#8, 0x67#8]) →
    step s = .refused .addressOverride

/-- R62: bytes at `pc` that differ from the rows in `W`, `pp`, map or opcode byte, in the VEX or in the EVEX layout,
are refused, and so is any first byte that is neither `C4h`, `62h` nor a legacy prefix (`C5h`, R52, among them). -/
def Obligations.NeighbouringEncodingsAreRefused : Prop :=
  ∀ (s : State), s.cfg.mode64 = true →
    (∀ p0 p1 opcode rest, fetchBytes s = 0xC4#8 :: p0 :: p1 :: opcode :: rest →
      (p1.getLsbD 7 = false ∨ p1.extractLsb' 0 2 ≠ 0b01#2 ∨ p0.extractLsb' 0 5 ≠ 0b00011#5 ∨ opcode ≠ 0x01#8) →
      step s = .refused .notVpermpd) ∧
    (∀ p0 p1 p2 opcode rest, fetchBytes s = 0x62#8 :: p0 :: p1 :: p2 :: opcode :: rest →
      (p1.getLsbD 7 = false ∨ p1.extractLsb' 0 2 ≠ 0b01#2 ∨
        ¬(p0.extractLsb' 0 2 = 0b11#2 ∧ opcode = 0x01#8 ∨ p0.extractLsb' 0 2 = 0b10#2 ∧ opcode = 0x16#8)) →
      step s = .refused .notVpermpd) ∧
    (∀ b rest, fetchBytes s = b :: rest → b ≠ 0xC4#8 → b ≠ 0x62#8 →
      ¬(b = 0xF0#8 ∨ b = 0x66#8 ∨ b = 0xF2#8 ∨ b = 0xF3#8 ∨ (0x40 ≤ b.toNat ∧ b.toNat ≤ 0x4F)) →
      b ∉ [0x2E#8, 0x36#8, 0x3E#8, 0x26#8, 0x64#8, 0x65#8, 0x67#8] →
      step s = .refused .notVpermpd)

/-! ### Exceptions -/

/-- The five rows of spec/opcode_table.json marked illegal raise `#UD` in every state, whatever their other fields (R51,
R77, R79). That `exec` raises it outside 64-bit mode too, where R58 refuses, is the model's choice (log entry 17). -/
def Obligations.IllegalRowsAlwaysRaiseUd : Prop :=
  ∀ s : State,
    (∀ f, exec (.illegalVex128Imm8 f) s = .fault (.ud s)) ∧
    (∀ f, exec (.illegalEvex128Imm8 f) s = .fault (.ud s)) ∧
    (∀ f, exec (.illegalEvex128Vec f) s = .fault (.ud s)) ∧
    (∀ f, exec (.illegalEvexLl11Imm8 f) s = .fault (.ud s)) ∧
    (∀ f, exec (.illegalEvexLl11Vec f) s = .fault (.ud s))

/-- R77: the bytes of a VEX encoding of VPERMPD with `VEX.L = 0` at `pc` make the step raise `#UD`, whatever their
other fields and operands. -/
def Obligations.VexLZeroRaisesUd : Prop :=
  ∀ (s : State) (p0 p1 : Byte) (rest : List Byte),
    s.cfg.mode64 = true → fetchable s 15 = true → fetchBytes s = 0xC4#8 :: p0 :: p1 :: 0x01#8 :: rest →
    p0.extractLsb' 0 5 = 0b00011#5 → p1.extractLsb' 0 2 = 0b01#2 → p1.getLsbD 7 = true → p1.getLsbD 2 = false →
    step s = .fault (.ud s)

/-- R78: the bytes of the VEX form at `pc` with stored `vvvv` bits that are not all ones make the step raise `#UD`. -/
def Obligations.VexVvvvReservedRaisesUd : Prop :=
  ∀ (s : State) (p0 p1 : Byte) (rest : List Byte),
    s.cfg.mode64 = true → fetchable s 15 = true → fetchBytes s = 0xC4#8 :: p0 :: p1 :: 0x01#8 :: rest →
    p0.extractLsb' 0 5 = 0b00011#5 → p1.extractLsb' 0 2 = 0b01#2 → p1.getLsbD 7 = true →
    p1.extractLsb' 3 4 ≠ 0b1111#4 →
    step s = .fault (.ud s)

/-- R79: the bytes of an EVEX form at `pc`, opcode `01h` or `16h`, with `L'L = 00b` make the step raise `#UD`. -/
def Obligations.Evex128RaisesUd : Prop :=
  ∀ (s : State) (p0 p1 p2 opcode : Byte) (rest : List Byte),
    s.cfg.mode64 = true → fetchable s 15 = true → fetchBytes s = 0x62#8 :: p0 :: p1 :: p2 :: opcode :: rest →
    p1.extractLsb' 0 2 = 0b01#2 → p1.getLsbD 7 = true →
    (p0.extractLsb' 0 2 = 0b11#2 ∧ opcode = 0x01#8 ∨ p0.extractLsb' 0 2 = 0b10#2 ∧ opcode = 0x16#8) →
    p2.extractLsb' 5 2 = 0b00#2 →
    step s = .fault (.ud s)

/-- R80: the bytes of an EVEX imm8 form at `pc` with stored `vvvv` bits that are not all ones make the step raise
`#UD`; in the vector-control forms the same bits are the index operand, and whether they raise `#UD` does not depend
on them. -/
def Obligations.EvexVvvvReservedWithImm8RaisesUd : Prop :=
  (∀ (s : State) (p0 p1 p2 : Byte) (rest : List Byte),
    s.cfg.mode64 = true → fetchable s 15 = true → fetchBytes s = 0x62#8 :: p0 :: p1 :: p2 :: 0x01#8 :: rest →
    p1.extractLsb' 0 2 = 0b01#2 → p1.getLsbD 7 = true → p0.extractLsb' 0 2 = 0b11#2 →
    p1.extractLsb' 3 4 ≠ 0b1111#4 →
    step s = .fault (.ud s)) ∧
  (∀ (s : State) (f : EvexVec) (v : BitVec 5),
    (exec (.vpermpdEvex256Vec f) s = .fault (.ud s) →
      exec (.vpermpdEvex256Vec { f with idx := v }) s = .fault (.ud s)) ∧
    (exec (.vpermpdEvex512Vec f) s = .fault (.ud s) →
      exec (.vpermpdEvex512Vec { f with idx := v }) s = .fault (.ud s)))

/-- R51: the reserved EVEX encodings that the source does not state raise `#UD`: `V'~ = 0` in the imm8 forms,
`L'L = 11b`, and in every EVEX form `z = 1` with `aaa = 000b`, `b = 1` with a register source, `P1[2] = 0`,
`P0[3:2] != 00b`. -/
def Obligations.ReservedEvexFieldsRaiseUd : Prop :=
  ∀ s : State, s.cfg.mode64 = true →
    (∀ f : EvexImm8,
      exec (.illegalEvexLl11Imm8 f) s = .fault (.ud s) ∧
      ((f.vPrime = false ∨ (f.ctl.z = true ∧ f.ctl.aaa = 0#3) ∨ (f.ctl.b = true ∧ ∃ n, f.src = .reg n) ∨
          f.ctl.p1Fixed = false ∨ f.ctl.p0Reserved ≠ 0#2) →
        exec (.vpermpdEvex256Imm8 f) s = .fault (.ud s) ∧ exec (.vpermpdEvex512Imm8 f) s = .fault (.ud s))) ∧
    (∀ f : EvexVec,
      exec (.illegalEvexLl11Vec f) s = .fault (.ud s) ∧
      (((f.ctl.z = true ∧ f.ctl.aaa = 0#3) ∨ (f.ctl.b = true ∧ ∃ n, f.src = .reg n) ∨
          f.ctl.p1Fixed = false ∨ f.ctl.p0Reserved ≠ 0#2) →
        exec (.vpermpdEvex256Vec f) s = .fault (.ud s) ∧ exec (.vpermpdEvex512Vec f) s = .fault (.ud s)))

/-- R82: an instruction with no reserved field at a wrong value raises `#UD` where its row needs a feature or an
enable that is missing, and, where all are there, `#NM` if `CR0.TS = 1` (the model's choice, log entry 10). -/
def Obligations.MissingFeatureRaisesUd : Prop :=
  ∀ (i : Instr) (s : State), s.cfg.mode64 = true → i.valid = true →
    ((∀ f, i = .vpermpdVex256Imm8 f → (s.cfg.hasAvx2 = false ∨ s.cfg.osAvx = false) → exec i s = .fault (.ud s)) ∧
     (∀ f, (i = .vpermpdEvex512Imm8 f) → (s.cfg.hasAvx512f = false ∨ s.cfg.osAvx512 = false) →
       exec i s = .fault (.ud s)) ∧
     (∀ f, (i = .vpermpdEvex512Vec f) → (s.cfg.hasAvx512f = false ∨ s.cfg.osAvx512 = false) →
       exec i s = .fault (.ud s)) ∧
     (∀ f, (i = .vpermpdEvex256Imm8 f) →
       (s.cfg.hasAvx512f = false ∨ s.cfg.hasAvx512vl = false ∨ s.cfg.osAvx512 = false) → exec i s = .fault (.ud s)) ∧
     (∀ f, (i = .vpermpdEvex256Vec f) →
       (s.cfg.hasAvx512f = false ∨ s.cfg.hasAvx512vl = false ∨ s.cfg.osAvx512 = false) → exec i s = .fault (.ud s)) ∧
     (Usable s.cfg i → s.cfg.taskSwitched = true → exec i s = .fault (.nm s)))

/-- R86: the checks of one instruction are made in the order encoding-level `#UD` (a prefix that R53 makes `#UD` among
them), feature and enable `#UD` and `#NM`, memory fault of the operand read, and the first that applies is the one
reported; an instruction that passes them all reports none. That `CR0.TS = 1` raises `#NM`, and after the feature
`#UD`, is the model's choice (log entry 10). -/
def Obligations.ChecksAreMadeInOrder : Prop :=
  ∀ (i : Instr) (s : State), s.cfg.mode64 = true →
    (∀ n, decode (fetchBytes s) = .ud n → fetchable s n = true → step s = .fault (.ud s)) ∧
    (i.valid = false → exec i s = .fault (.ud s)) ∧
    (i.valid = true → ¬Usable s.cfg i → exec i s = .fault (.ud s)) ∧
    (i.valid = true → Usable s.cfg i → s.cfg.taskSwitched = true → exec i s = .fault (.nm s)) ∧
    (i.valid = true → Usable s.cfg i → s.cfg.taskSwitched = false → ∀ w, viewOf i = some w →
      (∀ m e, w.src = .mem m → memFault s (effAddr s i.length w.scale m) w.bytes = some e →
        exec i s = .fault (.mem e s)) ∧
      (SourceReadable s i.length w.scale w.bytes w.src → ∀ x, exec i s ≠ .fault x))

/-- R33: a memory exception that `MemFault` reports for the operand's bytes (R25) is raised whatever the write mask
and the masking kind hold, and nothing is written. -/
def Obligations.MemoryFaultIsNotSuppressedByTheMask : Prop :=
  ∀ (i : Instr) (s : State) (w : FormView) (m : MemOperand) (e : MemException) (masks : Vector (BitVec 64) 8),
    s.cfg.mode64 = true → i.valid = true → Usable s.cfg i → s.cfg.taskSwitched = false →
    viewOf i = some w → w.src = .mem m → memFault s (effAddr s i.length w.scale m) w.bytes = some e →
    exec i (withMasks masks s) = .fault (.mem e (withMasks masks s))

/-- R87: a step that raises leaves the state it started from, whole. -/
def Obligations.FaultsArePrecise : Prop :=
  ∀ (s : State) (x : Fault), step s = .fault x → x = .ud s ∨ x = .nm s ∨ ∃ e, x = .mem e s

/-- R81: `#UD` is vector 6 and a fault, whose instruction pointer is that of the faulting instruction, and it records no
error code and no address. -/
def Obligations.UdIsVectorSixAndRecordsNothing : Prop :=
  ∀ s t : State, step s = .fault (.ud t) →
    (Fault.ud t).vector = 6 ∧ (Fault.ud t).state.pc = s.pc ∧ (Fault.ud t).errorCode = none ∧
    (Fault.ud t).address = none

/-- No step raises a SIMD floating-point exception, and the exception masks and flags of `MXCSR` change nothing (R85): the
vectors raised are those of the table in 60_exceptions.md section 9. -/
def Obligations.NoFloatingPointExceptionIsRaised : Prop :=
  ∀ (s : State) (m : BitVec 32),
    (∀ x, step s = .fault x → x.vector ∈ [6, 7, 12, 13, 14, 17]) ∧
    (∀ x, step s = .fault x → ∃ y, step (withStatus s.rflags m s.x87 s) = .fault y ∧ y.vector = x.vector ∧
      y.errorCode = x.errorCode ∧ y.address = x.address) ∧
    (∀ t, step s = .next t → step (withStatus s.rflags m s.x87 s) = .next (withStatus t.rflags m t.x87 t))

/-- Outside 64-bit mode every step is refused, and so is every form (R58: the model admits 64-bit mode only). -/
def Obligations.OnlyMode64IsAdmitted : Prop :=
  ∀ s : State, s.cfg.mode64 = false →
    step s = .refused .notMode64 ∧ ∀ (i : Instr) (w : FormView), viewOf i = some w → exec i s = .refused .notMode64

/-- A memory operand that touches a device region, where `MemFault` reports nothing, is refused (R34); that the memory
fault comes first is the model's choice (log entry 11). -/
def Obligations.DeviceOperandIsRefused : Prop :=
  ∀ (i : Instr) (s : State) (w : FormView) (m : MemOperand),
    s.cfg.mode64 = true → i.valid = true → Usable s.cfg i → s.cfg.taskSwitched = false →
    viewOf i = some w → w.src = .mem m → memFault s (effAddr s i.length w.scale m) w.bytes = none →
    touchesDevice s (effAddr s i.length w.scale m) w.bytes = true →
    exec i s = .refused .deviceMemory

/-! ### What an instruction writes -/

/-- R18: a step that answers a next state ran the instruction decoded at `pc` and wrote its destination register and
`pc` and nothing else; a step that raises writes nothing. -/
def Obligations.StepWritesDestinationAndPcOnly : Prop :=
  ∀ s : State,
    (∀ t, step s = .next t → ∃ i rest w, decode (fetchBytes s) = .instr i rest ∧ viewOf i = some w ∧
      OnlyWrites s t w.dest ∧ t.pc = s.pc + BitVec.ofNat 64 i.length) ∧
    (∀ x, step s = .fault x → x = .ud s ∨ x = .nm s ∨ ∃ e, x = .mem e s)

/-- R32: no step writes memory. -/
def Obligations.NoStepWritesMemory : Prop :=
  ∀ s t : State, step s = .next t → t.mem = s.mem ∧ ∀ a : Word, readByte t a = readByte s a

/-- R20: no step reads or writes the flags, `MXCSR` or the x87 state: with any other values in them the outcome is
the same but for those values, and a next state holds them unchanged. -/
def Obligations.StatusIsNeitherReadNorWritten : Prop :=
  ∀ (s : State) (r : BitVec 64) (m : BitVec 32) (x : X87),
    step (withStatus r m x s) = mapResult (withStatus r m x) (step s) ∧
    ∀ t, step s = .next t → t.rflags = s.rflags ∧ t.mxcsr = s.mxcsr ∧ t.x87 = s.x87

/-- R16: no form writes an opmask register, and the bits of the mask register from `KL` up, and every opmask register
but the selected one, have no effect. -/
def Obligations.OpmaskBitsAboveKlHaveNoEffect : Prop :=
  ∀ (i : Instr) (s t : State) (w : FormView) (masks : Vector (BitVec 64) 8),
    viewOf i = some w → exec i s = .next t →
    t.k = s.k ∧
    ((∀ j, j < kl w.vl → (readK (withMasks masks s) w.aaa).getLsbD j = (readK s w.aaa).getLsbD j) →
      exec i (withMasks masks s) = .next (withMasks masks t))

/-- R17: with no mask selected (`aaa = 000`, and always in the VEX form) every element is written with an element of
the source, whatever `K[0]` and the other opmask registers hold. -/
def Obligations.NoWritemaskWritesEveryElement : Prop :=
  ∀ (i : Instr) (s t : State) (w : FormView) (masks : Vector (BitVec 64) 8),
    viewOf i = some w → w.aaa = 0#3 → exec i s = .next t →
    exec i (withMasks masks s) = .next (withMasks masks t) ∧
    ∀ j, j < kl w.vl → ∃ e, e < kl w.vl ∧
      qword (readV t w.dest) j = sourceElem s i.length w.scale w.bcast w.src e

/-- R22: `pc` is the address of the instruction's first byte, an instruction that completes sets it to `pc + len` modulo
2^64, one that raises leaves it, and RIP-relative addressing uses `pc + len`. -/
def Obligations.PcAdvancesByLen : Prop :=
  ∀ (i : Instr) (s : State),
    (fetchBytes s)[0]? = some (readByte s s.pc) ∧
    (∀ t, exec i s = .next t → t.pc.toNat = (s.pc.toNat + i.length) % 2 ^ 64) ∧
    (∀ x, exec i s = .fault x → x = .ud s ∨ x = .nm s ∨ ∃ e, x = .mem e s) ∧
    (∀ n d, effAddr s i.length n (.ripRel d) =
      BitVec.ofInt 64 ((s.pc.toNat : Int) + (i.length : Int) + d.toInt))

/-- Every form that completes leaves 0 in the destination register from bit `VL` up, masked or not (R15, R64). -/
def Obligations.DestinationIsZeroAboveVl : Prop :=
  ∀ (i : Instr) (s t : State) (w : FormView), viewOf i = some w → exec i s = .next t →
    ∀ b, vlBits w.vl ≤ b → (readV t w.dest).getLsbD b = false

/-- R66: elements are moved bit for bit. Without a mask, or where the element's mask bit is 1, the destination's element
is an element of the source; where the mask bit is 0 it is the old element under merging-masking, and 0 only under
zeroing-masking. -/
def Obligations.ElementsAreMovedUnchanged : Prop :=
  ∀ (i : Instr) (s t : State) (w : FormView), viewOf i = some w → exec i s = .next t →
    ∀ j, j < kl w.vl →
      ((w.aaa = 0#3 ∨ (readK s w.aaa).getLsbD j = true) →
        ∃ e, e < kl w.vl ∧ qword (readV t w.dest) j = sourceElem s i.length w.scale w.bcast w.src e) ∧
      (w.aaa ≠ 0#3 → (readK s w.aaa).getLsbD j = false → w.z = false →
        qword (readV t w.dest) j = qword (readV s w.dest) j) ∧
      (w.aaa ≠ 0#3 → (readK s w.aaa).getLsbD j = false → w.z = true → qword (readV t w.dest) j = 0#64)

/-- R67: all reads precede the write, so a form whose source register, or index register, is its destination gives
what it gives with that input copied to another register first. -/
def Obligations.ReadsPrecedeTheWrite : Prop :=
  (∀ (f : VexImm8) (c n : BitVec 4) (s t : State),
    f.src = .reg n → c ≠ f.dest → readV s (c.setWidth 5) = readV s (n.setWidth 5) →
    exec (.vpermpdVex256Imm8 f) s = .next t →
    exec (.vpermpdVex256Imm8 { f with src := .reg c }) s = .next t) ∧
  (∀ (f : EvexImm8) (c n : BitVec 5) (s t : State),
    f.src = .reg n → c ≠ f.dest → readV s c = readV s n →
    (exec (.vpermpdEvex256Imm8 f) s = .next t →
      exec (.vpermpdEvex256Imm8 { f with src := .reg c }) s = .next t) ∧
    (exec (.vpermpdEvex512Imm8 f) s = .next t →
      exec (.vpermpdEvex512Imm8 { f with src := .reg c }) s = .next t)) ∧
  (∀ (f : EvexVec) (c c' n : BitVec 5) (s t : State),
    f.src = .reg n → c ≠ f.dest → c' ≠ f.dest → readV s c = readV s n → readV s c' = readV s f.idx →
    (exec (.vpermpdEvex256Vec f) s = .next t →
      exec (.vpermpdEvex256Vec { f with src := .reg c, idx := c' }) s = .next t) ∧
    (exec (.vpermpdEvex512Vec f) s = .next t →
      exec (.vpermpdEvex512Vec { f with src := .reg c, idx := c' }) s = .next t))

/-- R19 as non-interference: two states that agree on what an instruction reads (the source register or the bytes of
its memory operand, 8 of them under broadcast, the registers of its address, the index register, the low `KL` bits
of the selected opmask, and under merging-masking the old destination) give the same destination and `pc`, whatever
else they differ in. -/
def Obligations.ResultDependsOnTheReadSetOnly : Prop :=
  ∀ (i : Instr) (s s' t : State) (w : FormView),
    viewOf i = some w → AgreeOnReads w s s' i.length → exec i s = .next t →
    ∃ t', exec i s' = .next t' ∧ readV t' w.dest = readV t w.dest ∧ t'.pc = t.pc

/-! ### Operands and helpers -/

/-- The effective address of R29 is the sum of its parts as whole numbers, modulo 2^64: the base register, the index
register (none for index 0100b) times 1, 2, 4 or 8, the sign-extended displacement with a `disp8` times `N`, and for
RIP-relative the address of the next instruction. -/
def Obligations.EffectiveAddressIsTheSumModulo2To64 : Prop :=
  ∀ (s : State) (len n : Nat),
    (∀ d, effAddr s len n (.ripRel d) = BitVec.ofInt 64 ((s.pc.toNat : Int) + len + d.toInt)) ∧
    (∀ g, effAddr s len n (.base g .none) = readG s g) ∧
    (∀ g d, effAddr s len n (.base g (.disp8 d)) = BitVec.ofInt 64 ((readG s g).toNat + d.toInt * n)) ∧
    (∀ g d, effAddr s len n (.base g (.disp32 d)) = BitVec.ofInt 64 ((readG s g).toNat + d.toInt)) ∧
    (∀ sc ix g d, ix ≠ 0b0100#4 → effAddr s len n (.sib sc ix g d) =
      effAddr s len n (.base g d) + BitVec.ofNat 64 ((readG s ix).toNat * 2 ^ sc.toNat)) ∧
    (∀ sc g d, effAddr s len n (.sib sc 0b0100#4 g d) = effAddr s len n (.base g d)) ∧
    (∀ sc ix d, ix ≠ 0b0100#4 → effAddr s len n (.sibNoBase sc ix d) =
      BitVec.ofInt 64 (((readG s ix).toNat * 2 ^ sc.toNat : Nat) + d.toInt)) ∧
    (∀ sc d, effAddr s len n (.sibNoBase sc 0b0100#4 d) = BitVec.ofInt 64 d.toInt)

/-- R30: memory operands are little-endian. The byte at `addr + k` supplies bits `8k+7:8k` of a read, so element `j`
is the 8 bytes from `addr + 8j`, least significant first; instruction bytes are fetched in increasing address order,
and those of a `disp32` have the least significant first. -/
def Obligations.MemoryIsLittleEndian : Prop :=
  (∀ (s : State) (a : Word) (n : Nat), n ≤ 64 →
    (∀ k, k < n → (memRead s a n).extractLsb' (8 * k) 8 = readByte s (a + BitVec.ofNat 64 k)) ∧
    (∀ j, 8 * j + 8 ≤ n → qword (memRead s a n) j = leQword s (a + BitVec.ofNat 64 (8 * j)))) ∧
  (∀ (s : State) (k : Nat), k < 15 → (fetchBytes s)[k]? = some (readByte s (s.pc + BitVec.ofNat 64 k))) ∧
  (∀ (b0 b1 b2 b3 : Byte) (rest : List Byte), ∃ d, parseDisp32 (b0 :: b1 :: b2 :: b3 :: rest) = some (d, rest) ∧
    d.extractLsb' 0 8 = b0 ∧ d.extractLsb' 8 8 = b1 ∧ d.extractLsb' 16 8 = b2 ∧ d.extractLsb' 24 8 = b3)

/-- R63: `PermImm` is the source's eight lines: the element is the 256-bit window shifted right by 64 times the
two-bit field of the immediate, its low 64 bits. -/
def Obligations.PermImmIsTheSourcesEightLines : Prop :=
  ∀ (t : Zmm) (imm : Byte),
    let lower : BitVec 256 := t.extractLsb' 0 256
    let upper : BitVec 256 := t.extractLsb' 256 256
    (∀ vl : VectorLength,
      qword (permImm vl t imm) 0 = (lower >>> ((imm.extractLsb' 0 2).toNat * 64)).extractLsb' 0 64 ∧
      qword (permImm vl t imm) 1 = (lower >>> ((imm.extractLsb' 2 2).toNat * 64)).extractLsb' 0 64 ∧
      qword (permImm vl t imm) 2 = (lower >>> ((imm.extractLsb' 4 2).toNat * 64)).extractLsb' 0 64 ∧
      qword (permImm vl t imm) 3 = (lower >>> ((imm.extractLsb' 6 2).toNat * 64)).extractLsb' 0 64) ∧
    qword (permImm .vl512 t imm) 4 = (upper >>> ((imm.extractLsb' 0 2).toNat * 64)).extractLsb' 0 64 ∧
    qword (permImm .vl512 t imm) 5 = (upper >>> ((imm.extractLsb' 2 2).toNat * 64)).extractLsb' 0 64 ∧
    qword (permImm .vl512 t imm) 6 = (upper >>> ((imm.extractLsb' 4 2).toNat * 64)).extractLsb' 0 64 ∧
    qword (permImm .vl512 t imm) 7 = (upper >>> ((imm.extractLsb' 6 2).toNat * 64)).extractLsb' 0 64

/-- R64: `ApplyMask` bit by bit: below `VL` a bit is the new one where there is no mask or its element's mask bit is 1,
else the old one under merging-masking and 0 under zeroing-masking; from `VL` up it is 0. -/
def Obligations.ApplyMaskBitByBit : Prop :=
  ∀ (vl : VectorLength) (old tmp : Zmm) (usemask : Bool) (kval : BitVec 64) (z : Bool) (b : Nat), b < 512 →
    (b < vlBits vl →
      ((usemask = false ∨ kval.getLsbD (b / 64) = true) →
        (applyMask vl old tmp usemask kval z).getLsbD b = tmp.getLsbD b) ∧
      (usemask = true → kval.getLsbD (b / 64) = false → z = false →
        (applyMask vl old tmp usemask kval z).getLsbD b = old.getLsbD b) ∧
      (usemask = true → kval.getLsbD (b / 64) = false → z = true →
        (applyMask vl old tmp usemask kval z).getLsbD b = false)) ∧
    (vlBits vl ≤ b → (applyMask vl old tmp usemask kval z).getLsbD b = false)

/-- R73: `PermVec` is the source's lines: the element is the `VL`-bit window shifted right by 64 times the low two (at
`VL = 256`) or three (at `VL = 512`) bits of the index element, its low 64 bits. -/
def Obligations.PermVecIsTheSourcesLines : Prop :=
  ∀ (idx t : Zmm),
    (∀ j, j < 4 → qword (permVec .vl256 idx t) j =
      ((t.extractLsb' 0 256) >>> ((idx.extractLsb' (64 * j) 2).toNat * 64)).extractLsb' 0 64) ∧
    (∀ j, j < 8 → qword (permVec .vl512 idx t) j =
      (t >>> ((idx.extractLsb' (64 * j) 3).toNat * 64)).extractLsb' 0 64)

/-- R76: only the low `n` bits of an index element are looked at, two at `VL = 256` and three at `VL = 512`: index
vectors that agree in them select the same elements, and every index is in range. -/
def Obligations.IndexBitsAboveTheLowOnesAreIgnored : Prop :=
  ∀ (t idx idx' : Zmm),
    ((∀ j, j < 4 → (qword idx' j).extractLsb' 0 2 = (qword idx j).extractLsb' 0 2) →
      permVec .vl256 idx' t = permVec .vl256 idx t) ∧
    ((∀ j, j < 8 → (qword idx' j).extractLsb' 0 3 = (qword idx j).extractLsb' 0 3) →
      permVec .vl512 idx' t = permVec .vl512 idx t) ∧
    (∀ vl j, vecIndex vl idx j < kl vl)

/-- Indices need not be distinct (R68): four equal fields of the immediate, or equal index elements, copy one source
element to every position (of its half, under the immediate). -/
def Obligations.OneElementCanGoToEveryPosition : Prop :=
  ∀ (vl : VectorLength) (t : Zmm) (c : BitVec 2) (idx : Zmm) (e : Nat),
    (∀ j, j < kl vl → qword (permImm vl t (c ++ c ++ c ++ c)) j = qword t (4 * (j / 4) + c.toNat)) ∧
    (e < kl vl → (∀ j, j < kl vl → qword idx j = BitVec.ofNat 64 e) →
      ∀ j, j < kl vl → qword (permVec vl idx t) j = qword t e)

/-! ### Completion and results -/

/-- Row 1 completes (R69): with no reserved field at a wrong value, the feature and enable there, `CR0.TS = 0` and the
source readable, the destination's four elements are the source's elements that the immediate selects, its upper
half is 0, `pc` advances by `len`, and nothing else changes. -/
def Obligations.Vex256Imm8Completes : Prop :=
  ∀ (f : VexImm8) (s : State),
    s.cfg.mode64 = true → f.vvvv = 0b1111#4 → s.cfg.hasAvx2 = true → s.cfg.osAvx = true →
    s.cfg.taskSwitched = false → SourceReadable s f.length 1 32 (f.src.mapReg fun n => n.setWidth 5) →
    ∃ t, exec (.vpermpdVex256Imm8 f) s = .next t ∧
      t.pc = s.pc + BitVec.ofNat 64 f.length ∧
      (∀ j, j < 4 → qword (readV t (f.dest.setWidth 5)) j =
        sourceElem s f.length 1 false (f.src.mapReg fun n => n.setWidth 5) (f.imm.extractLsb' (2 * j) 2).toNat) ∧
      (∀ j, 4 ≤ j → qword (readV t (f.dest.setWidth 5)) j = 0#64) ∧
      OnlyWrites s t (f.dest.setWidth 5)

/-- Row 2 completes (R70): as row 1, under the write mask, with embedded broadcast. -/
def Obligations.Evex256Imm8Completes : Prop :=
  ∀ (f : EvexImm8) (s : State),
    s.cfg.mode64 = true → f.valid = true → s.cfg.hasAvx512f = true → s.cfg.hasAvx512vl = true →
    s.cfg.osAvx512 = true → s.cfg.taskSwitched = false →
    SourceReadable s f.length (if f.ctl.b then 8 else 32) (if f.ctl.b then 8 else 32) f.src →
    ∃ t, exec (.vpermpdEvex256Imm8 f) s = .next t ∧
      t.pc = s.pc + BitVec.ofNat 64 f.length ∧
      (∀ j, j < 4 → qword (readV t f.dest) j =
        maskedElem s f.ctl.aaa f.ctl.z j (qword (readV s f.dest) j)
          (sourceElem s f.length (if f.ctl.b then 8 else 32) f.ctl.b f.src (f.imm.extractLsb' (2 * j) 2).toNat)) ∧
      (∀ j, 4 ≤ j → qword (readV t f.dest) j = 0#64) ∧
      OnlyWrites s t f.dest

/-- Row 3 completes (R71): the immediate's four fields serve both 256-bit halves, and no element crosses between
them. -/
def Obligations.Evex512Imm8Completes : Prop :=
  ∀ (f : EvexImm8) (s : State),
    s.cfg.mode64 = true → f.valid = true → s.cfg.hasAvx512f = true → s.cfg.osAvx512 = true →
    s.cfg.taskSwitched = false →
    SourceReadable s f.length (if f.ctl.b then 8 else 64) (if f.ctl.b then 8 else 64) f.src →
    ∃ t, exec (.vpermpdEvex512Imm8 f) s = .next t ∧
      t.pc = s.pc + BitVec.ofNat 64 f.length ∧
      (∀ j, j < 4 → qword (readV t f.dest) j =
        maskedElem s f.ctl.aaa f.ctl.z j (qword (readV s f.dest) j)
          (sourceElem s f.length (if f.ctl.b then 8 else 64) f.ctl.b f.src (f.imm.extractLsb' (2 * j) 2).toNat)) ∧
      (∀ j, j < 4 → qword (readV t f.dest) (4 + j) =
        maskedElem s f.ctl.aaa f.ctl.z (4 + j) (qword (readV s f.dest) (4 + j))
          (sourceElem s f.length (if f.ctl.b then 8 else 64) f.ctl.b f.src
            (4 + (f.imm.extractLsb' (2 * j) 2).toNat))) ∧
      OnlyWrites s t f.dest

/-- Row 4 completes (R74): each index is the low two bits of the index register's element. -/
def Obligations.Evex256VecCompletes : Prop :=
  ∀ (f : EvexVec) (s : State),
    s.cfg.mode64 = true → f.valid = true → s.cfg.hasAvx512f = true → s.cfg.hasAvx512vl = true →
    s.cfg.osAvx512 = true → s.cfg.taskSwitched = false →
    SourceReadable s f.length (if f.ctl.b then 8 else 32) (if f.ctl.b then 8 else 32) f.src →
    ∃ t, exec (.vpermpdEvex256Vec f) s = .next t ∧
      t.pc = s.pc + BitVec.ofNat 64 f.length ∧
      (∀ j, j < 4 → qword (readV t f.dest) j =
        maskedElem s f.ctl.aaa f.ctl.z j (qword (readV s f.dest) j)
          (sourceElem s f.length (if f.ctl.b then 8 else 32) f.ctl.b f.src
            ((readV s f.idx).extractLsb' (64 * j) 2).toNat)) ∧
      (∀ j, 4 ≤ j → qword (readV t f.dest) j = 0#64) ∧
      OnlyWrites s t f.dest

/-- Row 5 completes (R75): each index is the low three bits of the index register's element, over all eight
elements. -/
def Obligations.Evex512VecCompletes : Prop :=
  ∀ (f : EvexVec) (s : State),
    s.cfg.mode64 = true → f.valid = true → s.cfg.hasAvx512f = true → s.cfg.osAvx512 = true →
    s.cfg.taskSwitched = false →
    SourceReadable s f.length (if f.ctl.b then 8 else 64) (if f.ctl.b then 8 else 64) f.src →
    ∃ t, exec (.vpermpdEvex512Vec f) s = .next t ∧
      t.pc = s.pc + BitVec.ofNat 64 f.length ∧
      (∀ j, j < 8 → qword (readV t f.dest) j =
        maskedElem s f.ctl.aaa f.ctl.z j (qword (readV s f.dest) j)
          (sourceElem s f.length (if f.ctl.b then 8 else 64) f.ctl.b f.src
            ((readV s f.idx).extractLsb' (64 * j) 3).toNat)) ∧
      OnlyWrites s t f.dest

/-- An all-zero mask under merging-masking keeps the low `VL` bits of the destination, under zeroing-masking clears
them, and in both cases the bits above are cleared and an operand that faults still faults (R56). -/
def Obligations.AllZeroMaskStillClearsTheUpperBits : Prop :=
  ∀ (i : Instr) (s : State) (w : FormView), s.cfg.mode64 = true → i.valid = true → Usable s.cfg i →
    s.cfg.taskSwitched = false → viewOf i = some w → w.aaa ≠ 0#3 →
    (∀ j, j < kl w.vl → (readK s w.aaa).getLsbD j = false) →
    (∀ m e, w.src = .mem m → memFault s (effAddr s i.length w.scale m) w.bytes = some e →
      exec i s = .fault (.mem e s)) ∧
    (SourceReadable s i.length w.scale w.bytes w.src → ∃ t, exec i s = .next t ∧
      ∀ b, (readV t w.dest).getLsbD b =
        (!w.z && decide (b < vlBits w.vl) && (readV s w.dest).getLsbD b))

/-- The VEX form and the EVEX.256 imm8 form without a mask, with the same registers, give the same vector registers:
the reading of the VEX block that R67 and R69 take (decision D3). -/
def Obligations.VexFormIsTheUnmaskedEvex256Form : Prop :=
  ∀ (d n : BitVec 4) (imm : Byte) (s t : State) (f : EvexImm8),
    f = { dest := d.setWidth 5, src := .reg (n.setWidth 5), imm := imm,
          ctl := { aaa := 0, z := false, b := false, p0Reserved := 0, p1Fixed := true }, vvvv := 15, vPrime := true } →
    s.cfg.hasAvx2 = true → s.cfg.osAvx = true →
    exec (.vpermpdEvex256Imm8 f) s = .next t →
    ∃ t', exec (.vpermpdVex256Imm8 { dest := d, src := .reg n, imm := imm, vvvv := 15 }) s = .next t' ∧
      ∀ r, readV t' r = readV t r

/-! ### The step and the invariant -/

/-- When the bytes at `pc` decode to an instruction and can be fetched, in 64-bit mode, the step is that instruction
(R72). -/
def Obligations.StepRunsTheDecodedInstruction : Prop :=
  ∀ (s : State) (i : Instr) (rest : List Byte), s.cfg.mode64 = true → decode (fetchBytes s) = .instr i rest →
    fetchable s i.length = true → step s = exec i s

/-- An instruction's encoding at `pc`, its bytes readable, is what the step runs: fetch, decode and execution together
(R72, R95; that unreadable bytes are refused is the model's choice, log entry 12). -/
def Obligations.EncodingAtPcRuns : Prop :=
  ∀ (s : State) (i : Instr), s.cfg.mode64 = true → i.encodable = true →
    (∀ k, ∀ h : k < (encode i).length, readByte s (s.pc + BitVec.ofNat 64 k) = (encode i)[k]'h) →
    (∀ k, k < i.length → memFault s (s.pc + BitVec.ofNat 64 k) 1 = none ∧
      touchesDevice s (s.pc + BitVec.ofNat 64 k) 1 = false) →
    step s = exec i s

/-- A word placed by the launcher at `pc` is the instruction that the next step runs, and placing it changes nothing but
the 15 bytes from `pc` on and the parameters a fetch needs: 64-bit mode, and fewer rules of `MemFault`, device regions
and rules of `Translate` (the model's own loader, log entry 7). -/
def Obligations.PlacedWordRunsNext : Prop :=
  ∀ (s : State) (nbits w : Nat), s.mem.wf = true →
    (∀ i, decodeTableWord nbits w = some i →
      step (s.withFetchWord nbits w) = exec i (s.withFetchWord nbits w)) ∧
    (s.withFetchWord nbits w).mem.wf = true ∧ (s.withFetchWord nbits w).v = s.v ∧
    (s.withFetchWord nbits w).k = s.k ∧ (s.withFetchWord nbits w).g = s.g ∧ (s.withFetchWord nbits w).pc = s.pc ∧
    statusState (s.withFetchWord nbits w) = statusState s ∧
    (∀ a : Nat, (∀ k, k < 15 → a ≠ (s.pc + BitVec.ofNat 64 k).toNat) →
      (s.withFetchWord nbits w).mem.read a = s.mem.read a) ∧
    (let c := (s.withFetchWord nbits w).cfg
     c.hasAvx2 = s.cfg.hasAvx2 ∧ c.hasAvx512f = s.cfg.hasAvx512f ∧ c.hasAvx512vl = s.cfg.hasAvx512vl ∧
     c.osAvx = s.cfg.osAvx ∧ c.osAvx512 = s.cfg.osAvx512 ∧ c.taskSwitched = s.cfg.taskSwitched ∧
     c.opmaskWidth = s.cfg.opmaskWidth ∧ c.mode64 = true ∧ c.memFault.Sublist s.cfg.memFault ∧
     c.devices.Sublist s.cfg.devices ∧ c.translation.Sublist s.cfg.translation)

/-- The state after reset satisfies the invariant. The reset values themselves are the model's own (log entries 3 to
6). -/
def Obligations.ResetSatisfiesInvariant : Prop :=
  Inv State.reset

/-- Every step that answers a next state keeps the invariant: memory stays canonical, and the bits and registers the
configured machine lacks stay 0 (R7, R13, R15, R16). -/
def Obligations.StepKeepsInvariant : Prop :=
  ∀ s t : State, Inv s → step s = .next t → Inv t

/-! ### Runs -/

/-- R96: a program laid out from `A0` ends at `A0` plus the sum of its lengths, and its run of `n` instructions takes at
most `n` steps: it is never left unfinished, and more steps change nothing. It is successful when `pc` is the end,
faulted where a step raises, and while steps complete it goes on as the run of what is left of the program. -/
def Obligations.RunTakesAtMostOneStepPerInstruction : Prop :=
  ∀ (p : Program) (s : State), p.wf = true → p.laidOutIn s = true → s.pc = p.start →
    p.last.toNat = p.start.toNat + (p.encodings.map List.length).sum ∧
    (∀ u, p.run s ≠ .unfinished u) ∧
    (∀ n, p.encodings.length ≤ n → runTo p.last n s = p.run s) ∧
    (∀ t, p.run s = .successful t → t.pc = p.last) ∧
    (∀ x, p.run s = .faulted x → step x.state = .fault x) ∧
    (p.encodings = [] → p.run s = .successful s) ∧
    (p.encodings ≠ [] → ∀ x, step s = .fault x → p.run s = .faulted x) ∧
    (p.encodings ≠ [] → ∀ t, step s = .next t →
      let rest : Program := { start := t.pc, encodings := p.encodings.tail }
      rest.wf = true ∧ rest.laidOutIn t = true ∧ rest.last = p.last ∧ p.run s = rest.run t)
end

