-- ==== Sys2Proof/Laws/Decode.lean ====
section
/-! SUPPORT. Decoding reads exactly the instruction's own bytes: what follows them is handed on, and their number is the
instruction's length. -/

namespace Sys2Proof

theorem parseDisp32_append {bs r : List Byte} {d : BitVec 32} (h : parseDisp32 bs = some (d, r)) (x : List Byte) :
    parseDisp32 (bs ++ x) = some (d, r ++ x) ∧ bs.length = 4 + r.length := by
  match bs, h with
  | _ :: _ :: _ :: _ :: _, h =>
    simp only [parseDisp32, Option.some.injEq, Prod.mk.injEq] at h
    obtain ⟨rfl, rfl⟩ := h
    exact ⟨rfl, by simp only [List.length_cons]; omega⟩

theorem parseDisp_append {mod : BitVec 2} {bs r : List Byte} {d : Disp} (h : parseDisp mod bs = some (d, r))
    (x : List Byte) : parseDisp mod (bs ++ x) = some (d, r ++ x) ∧ bs.length = d.length + r.length := by
  unfold parseDisp at h ⊢
  split at h
  · rename_i h0
    simp only [Option.some.injEq, Prod.mk.injEq] at h
    obtain ⟨rfl, rfl⟩ := h
    exact ⟨by rw [if_pos h0], by simp [Disp.length]⟩
  · rename_i h0
    split at h
    · rename_i h1
      match bs, h with
      | b :: rest, h =>
        simp only [Option.some.injEq, Prod.mk.injEq] at h
        obtain ⟨rfl, rfl⟩ := h
        exact ⟨by rw [if_neg h0, if_pos h1]; rfl, by simp only [List.length_cons, Disp.length]; omega⟩
    · rename_i h1
      obtain ⟨⟨v, r'⟩, hp, he⟩ := Option.map_eq_some_iff.1 h
      simp only [Prod.mk.injEq] at he
      obtain ⟨rfl, rfl⟩ := he
      obtain ⟨hx, hl⟩ := parseDisp32_append hp x
      exact ⟨by rw [if_neg h0, if_neg h1, hx]; rfl, hl⟩

theorem parseSib_append {xb bb : Bool} {mod : BitVec 2} {bs r : List Byte} {m : MemOperand}
    (h : parseSib xb bb mod bs = some (m, r)) (x : List Byte) :
    parseSib xb bb mod (bs ++ x) = some (m, r ++ x) ∧ bs.length = m.length + r.length := by
  match bs, h with
  | s :: rest, h =>
    simp only [parseSib, List.cons_append] at h ⊢
    split at h
    · rename_i h0
      obtain ⟨⟨v, r'⟩, hp, he⟩ := Option.map_eq_some_iff.1 h
      simp only [Prod.mk.injEq] at he
      obtain ⟨rfl, rfl⟩ := he
      obtain ⟨hx, hl⟩ := parseDisp32_append hp x
      exact ⟨by rw [if_pos h0, hx]; rfl, by simp only [List.length_cons, MemOperand.length]; omega⟩
    · rename_i h0
      obtain ⟨⟨v, r'⟩, hp, he⟩ := Option.map_eq_some_iff.1 h
      simp only [Prod.mk.injEq] at he
      obtain ⟨rfl, rfl⟩ := he
      obtain ⟨hx, hl⟩ := parseDisp_append hp x
      exact ⟨by rw [if_neg h0, hx]; rfl, by simp only [List.length_cons, MemOperand.length]; omega⟩

/-- ModRM, SIB and displacement: one byte and those of the operand. -/
theorem parseRm_append {xb bb : Bool} {bs r : List Byte} {reg : BitVec 3} {o : RmOperand 3}
    (h : parseRm xb bb bs = some (reg, o, r)) (x : List Byte) :
    parseRm xb bb (bs ++ x) = some (reg, o, r ++ x) ∧ bs.length = 1 + o.length + r.length := by
  match bs, h with
  | m :: rest, h =>
    simp only [parseRm, List.cons_append] at h ⊢
    split at h
    · rename_i h0
      simp only [Option.some.injEq, Prod.mk.injEq] at h
      obtain ⟨rfl, rfl, rfl⟩ := h
      exact ⟨by rw [if_pos h0], by simp only [List.length_cons, RmOperand.length]; omega⟩
    · rename_i h0
      split at h
      · rename_i h1
        obtain ⟨⟨v, r'⟩, hp, he⟩ := Option.map_eq_some_iff.1 h
        simp only [Prod.mk.injEq] at he
        obtain ⟨rfl, rfl, rfl⟩ := he
        obtain ⟨hx, hl⟩ := parseSib_append hp x
        exact ⟨by rw [if_neg h0, if_pos h1, hx]; rfl, by simp only [List.length_cons, RmOperand.length]; omega⟩
      · rename_i h1
        split at h
        · rename_i h2
          obtain ⟨⟨v, r'⟩, hp, he⟩ := Option.map_eq_some_iff.1 h
          simp only [Prod.mk.injEq] at he
          obtain ⟨rfl, rfl, rfl⟩ := he
          obtain ⟨hx, hl⟩ := parseDisp32_append hp x
          exact ⟨by rw [if_neg h0, if_neg h1, if_pos h2, hx]; rfl,
            by simp only [List.length_cons, RmOperand.length, MemOperand.length]; omega⟩
        · rename_i h2
          obtain ⟨⟨v, r'⟩, hp, he⟩ := Option.map_eq_some_iff.1 h
          simp only [Prod.mk.injEq] at he
          obtain ⟨rfl, rfl, rfl⟩ := he
          obtain ⟨hx, hl⟩ := parseDisp_append hp x
          exact ⟨by rw [if_neg h0, if_neg h1, if_neg h2, hx]; rfl,
            by simp only [List.length_cons, RmOperand.length, MemOperand.length]; omega⟩

@[simp] theorem RmOperand.mapReg_length {v w : Nat} (g : BitVec v → BitVec w) (o : RmOperand v) :
    (o.mapReg g).length = o.length := by cases o <;> rfl

theorem vexRow_length (l : Bool) (f : VexImm8) : (vexRow l f).length = f.length := by cases l <;> rfl

theorem evexImm8Row_length (ll : BitVec 2) (f : EvexImm8) : (evexImm8Row ll f).length = f.length := by
  unfold evexImm8Row; repeat' split
  all_goals rfl

theorem evexVecRow_length (ll : BitVec 2) (f : EvexVec) : (evexVecRow ll f).length = f.length := by
  unfold evexVecRow; repeat' split
  all_goals rfl

theorem decodeVex_append {bs r : List Byte} {i : Instr} (h : decodeVex bs = .instr i r) (x : List Byte) :
    decodeVex (bs ++ x) = .instr i (r ++ x) ∧ 1 + bs.length = i.length + r.length := by
  match bs, h with
  | p0 :: p1 :: opcode :: rest, h =>
    simp only [decodeVex, List.cons_append] at h ⊢
    split at h
    · rename_i h0
      rw [if_pos h0]
      split at h
      · rename_i reg src imm rest' hp
        obtain ⟨hx, hl⟩ := parseRm_append hp x
        simp only [Decoded.instr.injEq] at h
        obtain ⟨rfl, rfl⟩ := h
        refine ⟨by rw [hx]; rfl, ?_⟩
        simp only [vexRow_length, VexImm8.length, RmOperand.mapReg_length, List.length_cons] at hl ⊢
        omega
      · simp at h
      · simp at h
    · simp at h

theorem decodeEvex_append {bs r : List Byte} {i : Instr} (h : decodeEvex bs = .instr i r) (x : List Byte) :
    decodeEvex (bs ++ x) = .instr i (r ++ x) ∧ 1 + bs.length = i.length + r.length := by
  match bs, h with
  | p0 :: p1 :: p2 :: opcode :: rest, h =>
    simp only [decodeEvex, List.cons_append] at h ⊢
    split at h
    · rename_i h0
      rw [if_pos h0]
      split at h
      · simp at h
      · rename_i reg o rest' hp
        obtain ⟨hx, hl⟩ := parseRm_append hp x
        rw [hx]
        dsimp only
        split at h
        · rename_i h1
          rw [if_pos h1]
          match rest', h, hl with
          | imm :: rest'', h, hl =>
            simp only [Decoded.instr.injEq] at h
            obtain ⟨rfl, rfl⟩ := h
            refine ⟨rfl, ?_⟩
            simp only [evexImm8Row_length, EvexImm8.length, RmOperand.mapReg_length, List.length_cons] at hl ⊢
            omega
        · rename_i h1
          rw [if_neg h1]
          simp only [Decoded.instr.injEq] at h
          obtain ⟨rfl, rfl⟩ := h
          refine ⟨rfl, ?_⟩
          simp only [evexVecRow_length, EvexVec.length, RmOperand.mapReg_length, List.length_cons] at hl ⊢
          omega
    · simp at h

theorem decodeBody_append {bs r : List Byte} {i : Instr} (h : decodeBody bs = .instr i r) (x : List Byte) :
    decodeBody (bs ++ x) = .instr i (r ++ x) ∧ bs.length = i.length + r.length := by
  match bs, h with
  | b0 :: rest, h =>
    simp only [decodeBody, List.cons_append, List.length_cons] at h ⊢
    split at h
    · rename_i h0
      rw [if_pos h0]
      obtain ⟨hx, hl⟩ := decodeVex_append h x
      exact ⟨hx, by omega⟩
    · rename_i h0
      rw [if_neg h0]
      split at h
      · rename_i h1
        rw [if_pos h1]
        obtain ⟨hx, hl⟩ := decodeEvex_append h x
        exact ⟨hx, by omega⟩
      · simp at h

/-- Behind a prefix no instruction is decoded. -/
theorem decodePrefixed_ne_instr (override : Bool) (total : Nat) (bs : List Byte) (i : Instr) (r : List Byte) :
    decodePrefixed override total bs ≠ .instr i r := by
  induction bs generalizing override with
  | nil => simp [decodePrefixed]
  | cons b rest ih =>
    simp only [decodePrefixed]
    repeat' split
    · exact ih _
    · exact ih _
    · cases decodeBody (b :: rest) <;> simp only [behindPrefixes] <;> (try split) <;> simp

/-- What is decoded from some bytes is decoded from them with any others behind, and the bytes it took are as many as
its length. -/
theorem decode_append {bs r : List Byte} {i : Instr} (h : decode bs = .instr i r) (x : List Byte) :
    decode (bs ++ x) = .instr i (r ++ x) ∧ bs.length = i.length + r.length := by
  match bs, h with
  | b :: rest, h =>
    simp only [decode, List.cons_append] at h ⊢
    split at h
    · exact absurd h (decodePrefixed_ne_instr _ _ _ _ _)
    · rename_i h0
      rw [if_neg h0]
      split at h
      · exact absurd h (decodePrefixed_ne_instr _ _ _ _ _)
      · rename_i h1
        rw [if_neg h1]
        exact decodeBody_append h x

theorem Disp.length_le (d : Disp) : d.length ≤ 4 := by cases d <;> simp [Disp.length]

theorem MemOperand.length_le (m : MemOperand) : m.length ≤ 5 := by
  cases m with
  | ripRel d => simp [MemOperand.length]
  | base g d => have := d.length_le; simp only [MemOperand.length]; omega
  | sib sc ix g d => have := d.length_le; simp only [MemOperand.length]; omega
  | sibNoBase sc ix d => simp [MemOperand.length]

theorem RmOperand.length_le {w : Nat} (o : RmOperand w) : o.length ≤ 5 := by
  cases o with
  | reg n => simp [RmOperand.length]
  | mem m => exact m.length_le

end Sys2Proof
end

