-- ==== Sys2Proof/Laws/Elements.lean ====
section
/-! SUPPORT. A vector is its eight elements: reading an element of each vector that the data path builds. -/

namespace Sys2Proof.Machine

/-- Element `j` of the vector built from `f`. -/
theorem qword_ofElems (f : Nat → Qword) {j : Nat} (h : j < 8) : qword (ofElems f) j = f j := by
  have : j = 0 ∨ j = 1 ∨ j = 2 ∨ j = 3 ∨ j = 4 ∨ j = 5 ∨ j = 6 ∨ j = 7 := by omega
  apply BitVec.eq_of_getLsbD_eq
  intro b hb
  rcases this with rfl | rfl | rfl | rfl | rfl | rfl | rfl | rfl <;>
    simp [qword, ofElems, hb] <;> grind

/-- A vector has no element from the eighth on. -/
theorem qword_out (x : Zmm) {j : Nat} (h : 8 ≤ j) : qword x j = 0#64 := by
  apply BitVec.eq_of_getLsbD_eq
  intro b hb
  simp only [qword, BitVec.getLsbD_extractLsb', BitVec.getLsbD_zero, Bool.and_eq_false_iff]
  exact .inr (BitVec.getLsbD_of_ge _ _ (by omega))

/-- A bit of a vector is a bit of an element. -/
theorem getLsbD_eq_qword (x : Zmm) (b : Nat) : x.getLsbD b = (qword x (b / 64)).getLsbD (b % 64) := by
  simp only [qword, BitVec.getLsbD_extractLsb', Nat.mod_lt b (by decide : 0 < 64), decide_true, Bool.true_and,
    Nat.div_add_mod]

/-- Vectors with the same elements are equal. -/
theorem ext_qword {x y : Zmm} (h : ∀ j, j < 8 → qword x j = qword y j) : x = y := by
  apply BitVec.eq_of_getLsbD_eq
  intro b hb
  rw [getLsbD_eq_qword, getLsbD_eq_qword y, h _ (by omega)]

theorem kl_le (vl : VectorLength) : kl vl ≤ 8 := by cases vl <;> decide

theorem vlBits_eq (vl : VectorLength) : vlBits vl = 64 * kl vl := by cases vl <;> rfl

/-- An element of the vector that has `f` below `KL` and 0 above. -/
theorem qword_ofElems_lt {vl : VectorLength} (f : Nat → Qword) {j : Nat} (h : j < kl vl) :
    qword (ofElems fun j => if j < kl vl then f j else 0#64) j = f j := by
  rw [qword_ofElems _ (Nat.lt_of_lt_of_le h (kl_le vl)), if_pos h]

theorem qword_ofElems_ge {vl : VectorLength} (f : Nat → Qword) {j : Nat} (h : kl vl ≤ j) :
    qword (ofElems fun j => if j < kl vl then f j else 0#64) j = 0#64 := by
  by_cases h8 : j < 8
  · rw [qword_ofElems _ h8, if_neg (by omega)]
  · exact qword_out _ (by omega)

theorem qword_lowVl {vl : VectorLength} (x : Zmm) {j : Nat} (h : j < kl vl) :
    qword (lowVl vl x) j = qword x j := qword_ofElems_lt _ h

theorem qword_broadcast {vl : VectorLength} (e : Qword) {j : Nat} (h : j < kl vl) :
    qword (broadcast vl e) j = e := qword_ofElems_lt (fun _ => e) h

theorem immIndex_lt (imm : Byte) (j : Nat) : immIndex imm j < 4 := BitVec.isLt _

theorem vecIndex_lt (vl : VectorLength) (idx : Zmm) (j : Nat) : vecIndex vl idx j < kl vl := by
  cases vl <;> exact BitVec.isLt _

/-- The source element that `PermImm` selects lies below `KL`, in the same 256-bit half. -/
theorem permImm_index_lt {vl : VectorLength} (imm : Byte) {j : Nat} (h : j < kl vl) :
    4 * (j / 4) + immIndex imm j < kl vl := by
  have := immIndex_lt imm j
  cases vl <;> simp only [kl] at * <;> omega

theorem qword_permImm {vl : VectorLength} (t : Zmm) (imm : Byte) {j : Nat} (h : j < kl vl) :
    qword (permImm vl t imm) j = qword t (4 * (j / 4) + immIndex imm j) :=
  qword_ofElems_lt (fun j => qword t (4 * (j / 4) + immIndex imm j)) h

theorem qword_permVec {vl : VectorLength} (idx t : Zmm) {j : Nat} (h : j < kl vl) :
    qword (permVec vl idx t) j = qword t (vecIndex vl idx j) :=
  qword_ofElems_lt (fun j => qword t (vecIndex vl idx j)) h

theorem qword_applyMask {vl : VectorLength} (old tmp : Zmm) (usemask : Bool) (kval : BitVec 64) (z : Bool) {j : Nat}
    (h : j < kl vl) :
    qword (applyMask vl old tmp usemask kval z) j =
      if !usemask || kval.getLsbD j then qword tmp j else if z then 0#64 else qword old j :=
  qword_ofElems_lt (fun j => if !usemask || kval.getLsbD j then qword tmp j else if z then 0#64 else qword old j) h

theorem qword_applyMask_ge {vl : VectorLength} (old tmp : Zmm) (usemask : Bool) (kval : BitVec 64) (z : Bool) {j : Nat}
    (h : kl vl ≤ j) : qword (applyMask vl old tmp usemask kval z) j = 0#64 :=
  qword_ofElems_ge (fun j => if !usemask || kval.getLsbD j then qword tmp j else if z then 0#64 else qword old j) h

end Sys2Proof.Machine
end

