-- ==== Sys2Proof/Laws/Operands.lean ====
section
/-! SUPPORT. What reading the source operand and the checks before it can answer. -/

namespace Sys2Proof.Machine

/-! ### Little-endian reads -/

theorem leNat_lt (bs : List Byte) : leNat bs < 256 ^ bs.length := by
  induction bs with
  | nil => simp [leNat]
  | cons b rest ih =>
    have := b.isLt
    simp only [leNat, List.length_cons, Nat.pow_succ]
    omega

/-- Byte `k` of the number that a list of bytes spells. -/
theorem leNat_byte (bs : List Byte) {k : Nat} (h : k < bs.length) : leNat bs / 256 ^ k % 256 = bs[k].toNat := by
  induction bs generalizing k with
  | nil => simp at h
  | cons b rest ih =>
    have hb := b.isLt
    cases k with
    | zero =>
      simp only [leNat, pow_zero, Nat.div_one, List.getElem_cons_zero]
      omega
    | succ k =>
      have : leNat (b :: rest) / 256 = leNat rest := by simp only [leNat]; omega
      rw [Nat.pow_succ, Nat.mul_comm, ← Nat.div_div_eq_div_mul, this, ih (by simpa using h), List.getElem_cons_succ]

/-- The byte at `addr + k` is bits `8k+7:8k` of a read (R30). -/
theorem memRead_byte (s : State) (a : Word) {n k : Nat} (hn : n ≤ 64) (hk : k < n) :
    (memRead s a n).extractLsb' (8 * k) 8 = readByte s (byteAddr a k) := by
  apply BitVec.eq_of_toNat_eq
  let bs : List Byte := (List.range n).map fun k => readByte s (byteAddr a k)
  have hlen : bs.length = n := by simp [bs]
  have hlt : leNat bs < 2 ^ (8 * 64) := by
    refine Nat.lt_of_lt_of_le (leNat_lt bs) ?_
    calc 256 ^ bs.length ≤ 256 ^ 64 := Nat.pow_le_pow_right (by decide) (hlen ▸ hn)
      _ = 2 ^ (8 * 64) := (pow_mul 2 8 64).symm
  have hbyte := leNat_byte bs (k := k) (hlen.symm ▸ hk)
  have hget : bs[k]'(hlen.symm ▸ hk) = readByte s (byteAddr a k) := by simp [bs]
  rw [hget] at hbyte
  rw [BitVec.extractLsb'_toNat, memRead, BitVec.toNat_ofNat, Nat.mod_eq_of_lt hlt, Nat.shiftRight_eq_div_pow, ← hbyte,
    show (256 : Nat) = 2 ^ 8 from rfl, ← pow_mul]

/-- Element `j` of a read is the 8 bytes from `addr + 8j` (R30). -/
theorem memRead_qword (s : State) (a : Word) {n j : Nat} (hn : n ≤ 64) (hj : 8 * j + 8 ≤ n) :
    qword (memRead s a n) j = leQword s (a + BitVec.ofNat 64 (8 * j)) := by
  have byte : ∀ k, k < 8 →
      (memRead s a n).extractLsb' (64 * j + 8 * k) 8 = readByte s (a + BitVec.ofNat 64 (8 * j) + BitVec.ofNat 64 k) := by
    intro k hk
    rw [show 64 * j + 8 * k = 8 * (8 * j + k) by ring, memRead_byte s a hn (by omega), byteAddr, BitVec.add_assoc]
    congr 2
    simp [BitVec.ofNat_add]
  apply BitVec.eq_of_getLsbD_eq
  intro b hb
  have hk : b / 8 < 8 := by omega
  have hbit : (qword (memRead s a n) j).getLsbD b =
      (readByte s (a + BitVec.ofNat 64 (8 * j) + BitVec.ofNat 64 (b / 8))).getLsbD (b % 8) := by
    rw [← byte _ hk, qword, BitVec.getLsbD_extractLsb', BitVec.getLsbD_extractLsb']
    simp only [hb, decide_true, Nat.mod_lt b (by decide : 8 > 0), Bool.true_and]
    congr 1
    omega
  rw [hbit]
  obtain ⟨q, r, hr, hq, rfl⟩ : ∃ q r, r < 8 ∧ q < 8 ∧ b = 8 * q + r := ⟨b / 8, b % 8, by omega, hk, by omega⟩
  have h1 : (8 * q + r) / 8 = q := by omega
  have h2 : (8 * q + r) % 8 = r := by omega
  rw [h1, h2]
  have : q = 0 ∨ q = 1 ∨ q = 2 ∨ q = 3 ∨ q = 4 ∨ q = 5 ∨ q = 6 ∨ q = 7 := by omega
  rcases this with rfl | rfl | rfl | rfl | rfl | rfl | rfl | rfl <;>
    simp [leQword] <;> grind

/-! ### The source operand -/

theorem operandBytes_le (vl : VectorLength) (b : Bool) : operandBytes vl b ≤ 64 := by
  cases vl <;> cases b <;> decide

/-- The elements of a memory operand's value. -/
theorem qword_memValue (s : State) (vl : VectorLength) (b : Bool) (a : Word) {j : Nat} (h : j < kl vl) :
    qword (memValue s vl b a) j = leQword s (a + BitVec.ofNat 64 (if b then 0 else 8 * j)) := by
  cases b with
  | true =>
    rw [memValue, if_pos rfl, qword_broadcast _ h, memRead_qword s a (by decide) (by decide), if_pos rfl]
  | false =>
    have := vlBits_eq vl
    have := kl_le vl
    rw [memValue, if_neg (by decide), memRead_qword s a (by omega) (by omega), if_neg (by decide)]

/-- `LoadSrc` answers a value exactly when the source can be read, and its elements are the source's. -/
theorem loadSrc_value {s : State} {vl : VectorLength} {b : Bool} {len n : Nat} {src : RmOperand 5} {t : Zmm}
    (h : loadSrc s vl b len n src = .value t) :
    SourceReadable s len n (operandBytes vl b) src ∧ ∀ j, j < kl vl → qword t j = sourceElem s len n b src j := by
  cases src with
  | reg r =>
    simp only [loadSrc, SrcRead.value.injEq] at h
    subst h
    exact ⟨trivial, fun j hj => qword_lowVl (readV s r) hj⟩
  | mem m =>
    simp only [loadSrc, checkedRead] at h
    split at h
    · simp at h
    · rename_i hf
      split at h
      · simp at h
      · rename_i hd
        simp only [SrcRead.value.injEq] at h
        subst h
        exact ⟨⟨hf, by simpa using hd⟩, fun j hj => qword_memValue s vl b _ hj⟩

theorem loadSrc_of_readable {s : State} {vl : VectorLength} {b : Bool} {len n : Nat} {src : RmOperand 5}
    (h : SourceReadable s len n (operandBytes vl b) src) : ∃ t, loadSrc s vl b len n src = .value t := by
  cases src with
  | reg r => exact ⟨_, rfl⟩
  | mem m =>
    obtain ⟨hf, hd⟩ := h
    exact ⟨_, by simp only [loadSrc, checkedRead, hf, hd]; rfl⟩

/-- A memory source on which `MemFault` reports an exception. -/
theorem loadSrc_fault {s : State} {vl : VectorLength} {b : Bool} {len n : Nat} {m : MemOperand} {e : MemException}
    (h : memFault s (effAddr s len n m) (operandBytes vl b) = some e) :
    loadSrc s vl b len n (.mem m) = .fault e := by
  simp only [loadSrc, checkedRead, h]

/-- A memory source in a device region. -/
theorem loadSrc_device {s : State} {vl : VectorLength} {b : Bool} {len n : Nat} {m : MemOperand}
    (hf : memFault s (effAddr s len n m) (operandBytes vl b) = none)
    (hd : touchesDevice s (effAddr s len n m) (operandBytes vl b) = true) :
    loadSrc s vl b len n (.mem m) = .device := by
  simp only [loadSrc, checkedRead, hf, hd, if_true]

/-! ### The checks of R86 -/

theorem afterChecks_next {s t : State} {reserved usable : Bool} {k : Result} :
    afterChecks s reserved usable k = .next t ↔
      s.cfg.mode64 = true ∧ reserved = false ∧ usable = true ∧ s.cfg.taskSwitched = false ∧ k = .next t := by
  cases h1 : s.cfg.mode64 <;> cases reserved <;> cases usable <;> cases h2 : s.cfg.taskSwitched <;>
    simp [afterChecks, raiseUd, raiseNm, h1, h2]

/-- Past every check, what is left is the form's own work. -/
theorem afterChecks_pass {s : State} {reserved usable : Bool} {k : Result} (hm : s.cfg.mode64 = true)
    (hr : reserved = false) (hu : usable = true) (ht : s.cfg.taskSwitched = false) :
    afterChecks s reserved usable k = k := by
  simp [afterChecks, hm, hr, hu, ht]

theorem withSource_next {s t : State} {r : SrcRead} {k : Zmm → Result} :
    withSource s r k = .next t ↔ ∃ v, r = .value v ∧ k v = .next t := by
  cases r <;> simp [withSource, raiseMem]

end Sys2Proof.Machine
end

