-- ==== Sys2Proof/Laws/State.lean ====
section
/-! SUPPORT. One lemma for each field under each update of the state, and reading registers after a write. -/

namespace Sys2Proof.Machine

/-! ### `writeV` -/

@[simp] theorem writeV_k (s : State) (n : BitVec 5) (x : Zmm) : (writeV s n x).k = s.k := rfl
@[simp] theorem writeV_g (s : State) (n : BitVec 5) (x : Zmm) : (writeV s n x).g = s.g := rfl
@[simp] theorem writeV_pc (s : State) (n : BitVec 5) (x : Zmm) : (writeV s n x).pc = s.pc := rfl
@[simp] theorem writeV_rflags (s : State) (n : BitVec 5) (x : Zmm) : (writeV s n x).rflags = s.rflags := rfl
@[simp] theorem writeV_mxcsr (s : State) (n : BitVec 5) (x : Zmm) : (writeV s n x).mxcsr = s.mxcsr := rfl
@[simp] theorem writeV_x87 (s : State) (n : BitVec 5) (x : Zmm) : (writeV s n x).x87 = s.x87 := rfl
@[simp] theorem writeV_mem (s : State) (n : BitVec 5) (x : Zmm) : (writeV s n x).mem = s.mem := rfl
@[simp] theorem writeV_cfg (s : State) (n : BitVec 5) (x : Zmm) : (writeV s n x).cfg = s.cfg := rfl

@[simp] theorem readV_writeV_same (s : State) (n : BitVec 5) (x : Zmm) : readV (writeV s n x) n = x := by
  simp [readV, writeV]

theorem readV_writeV_other (s : State) {n m : BitVec 5} (x : Zmm) (h : m ≠ n) :
    readV (writeV s n x) m = readV s m := by
  have : n.toNat ≠ m.toNat := fun e => h (BitVec.eq_of_toNat_eq e.symm)
  simp [readV, writeV, this]

/-! ### `writePc` -/

@[simp] theorem writePc_v (s : State) (p : Word) : (writePc s p).v = s.v := rfl
@[simp] theorem writePc_k (s : State) (p : Word) : (writePc s p).k = s.k := rfl
@[simp] theorem writePc_g (s : State) (p : Word) : (writePc s p).g = s.g := rfl
@[simp] theorem writePc_rflags (s : State) (p : Word) : (writePc s p).rflags = s.rflags := rfl
@[simp] theorem writePc_mxcsr (s : State) (p : Word) : (writePc s p).mxcsr = s.mxcsr := rfl
@[simp] theorem writePc_x87 (s : State) (p : Word) : (writePc s p).x87 = s.x87 := rfl
@[simp] theorem writePc_mem (s : State) (p : Word) : (writePc s p).mem = s.mem := rfl
@[simp] theorem writePc_cfg (s : State) (p : Word) : (writePc s p).cfg = s.cfg := rfl
@[simp] theorem writePc_pc (s : State) (p : Word) : (writePc s p).pc = p := rfl
@[simp] theorem readV_writePc (s : State) (p : Word) (n : BitVec 5) : readV (writePc s p) n = readV s n := rfl
@[simp] theorem readK_writePc (s : State) (p : Word) (n : BitVec 3) : readK (writePc s p) n = readK s n := rfl
@[simp] theorem readG_writePc (s : State) (p : Word) (n : BitVec 4) : readG (writePc s p) n = readG s n := rfl
@[simp] theorem readByte_writePc (s : State) (p : Word) (n : Word) : readByte (writePc s p) n = readByte s n := rfl
@[simp] theorem statusState_writePc (s : State) (p : Word) : statusState (writePc s p) = statusState s := rfl

/-! ### The other reads after `writeV` -/

@[simp] theorem readK_writeV (s : State) (n : BitVec 5) (x : Zmm) (m : BitVec 3) :
    readK (writeV s n x) m = readK s m := rfl
@[simp] theorem readG_writeV (s : State) (n : BitVec 5) (x : Zmm) (m : BitVec 4) :
    readG (writeV s n x) m = readG s m := rfl
@[simp] theorem readByte_writeV (s : State) (n : BitVec 5) (x : Zmm) (a : Word) :
    readByte (writeV s n x) a = readByte s a := rfl
@[simp] theorem statusState_writeV (s : State) (n : BitVec 5) (x : Zmm) :
    statusState (writeV s n x) = statusState s := rfl

/-! ### Other opmask registers, other flags -/

@[simp] theorem withMasks_v (k : Vector (BitVec 64) 8) (s : State) : (withMasks k s).v = s.v := rfl
@[simp] theorem withMasks_g (k : Vector (BitVec 64) 8) (s : State) : (withMasks k s).g = s.g := rfl
@[simp] theorem withMasks_pc (k : Vector (BitVec 64) 8) (s : State) : (withMasks k s).pc = s.pc := rfl
@[simp] theorem withMasks_rflags (k : Vector (BitVec 64) 8) (s : State) : (withMasks k s).rflags = s.rflags := rfl
@[simp] theorem withMasks_mxcsr (k : Vector (BitVec 64) 8) (s : State) : (withMasks k s).mxcsr = s.mxcsr := rfl
@[simp] theorem withMasks_x87 (k : Vector (BitVec 64) 8) (s : State) : (withMasks k s).x87 = s.x87 := rfl
@[simp] theorem withMasks_mem (k : Vector (BitVec 64) 8) (s : State) : (withMasks k s).mem = s.mem := rfl
@[simp] theorem withMasks_cfg (k : Vector (BitVec 64) 8) (s : State) : (withMasks k s).cfg = s.cfg := rfl
@[simp] theorem readV_withMasks (k : Vector (BitVec 64) 8) (s : State) (n : BitVec 5) :
    readV (withMasks k s) n = readV s n := rfl
@[simp] theorem readG_withMasks (k : Vector (BitVec 64) 8) (s : State) (n : BitVec 4) :
    readG (withMasks k s) n = readG s n := rfl
@[simp] theorem readByte_withMasks (k : Vector (BitVec 64) 8) (s : State) (n : Word) :
    readByte (withMasks k s) n = readByte s n := rfl
@[simp] theorem readV_withStatus (r : BitVec 64) (m : BitVec 32) (x : X87) (s : State) (n : BitVec 5) :
    readV (withStatus r m x s) n = readV s n := rfl
@[simp] theorem readK_withStatus (r : BitVec 64) (m : BitVec 32) (x : X87) (s : State) (n : BitVec 3) :
    readK (withStatus r m x s) n = readK s n := rfl
@[simp] theorem readG_withStatus (r : BitVec 64) (m : BitVec 32) (x : X87) (s : State) (n : BitVec 4) :
    readG (withStatus r m x s) n = readG s n := rfl
@[simp] theorem readByte_withStatus (r : BitVec 64) (m : BitVec 32) (x : X87) (s : State) (n : Word) :
    readByte (withStatus r m x s) n = readByte s n := rfl

@[simp] theorem withStatus_v (r : BitVec 64) (m : BitVec 32) (x : X87) (s : State) :
    (withStatus r m x s).v = s.v := rfl
@[simp] theorem withStatus_k (r : BitVec 64) (m : BitVec 32) (x : X87) (s : State) :
    (withStatus r m x s).k = s.k := rfl
@[simp] theorem withStatus_g (r : BitVec 64) (m : BitVec 32) (x : X87) (s : State) :
    (withStatus r m x s).g = s.g := rfl
@[simp] theorem withStatus_pc (r : BitVec 64) (m : BitVec 32) (x : X87) (s : State) :
    (withStatus r m x s).pc = s.pc := rfl
@[simp] theorem withStatus_mem (r : BitVec 64) (m : BitVec 32) (x : X87) (s : State) :
    (withStatus r m x s).mem = s.mem := rfl
@[simp] theorem withStatus_cfg (r : BitVec 64) (m : BitVec 32) (x : X87) (s : State) :
    (withStatus r m x s).cfg = s.cfg := rfl

/-! ### Placing bytes at `pc` -/

@[simp] theorem placeAtPc_v (bs : List Byte) (s : State) : (placeAtPc bs s).v = s.v := rfl
@[simp] theorem placeAtPc_k (bs : List Byte) (s : State) : (placeAtPc bs s).k = s.k := rfl
@[simp] theorem placeAtPc_g (bs : List Byte) (s : State) : (placeAtPc bs s).g = s.g := rfl
@[simp] theorem placeAtPc_pc (bs : List Byte) (s : State) : (placeAtPc bs s).pc = s.pc := rfl
@[simp] theorem placeAtPc_mem (bs : List Byte) (s : State) :
    (placeAtPc bs s).mem = storeBytes s.pc bs s.mem := rfl
@[simp] theorem placeAtPc_cfg (bs : List Byte) (s : State) : (placeAtPc bs s).cfg = fetchConfig s.pc s.cfg := rfl
@[simp] theorem statusState_placeAtPc (bs : List Byte) (s : State) :
    statusState (placeAtPc bs s) = statusState s := rfl

/-- What a completion leaves unchanged. -/
theorem onlyWrites_complete (s : State) (d : BitVec 5) (x : Zmm) (p : Word) :
    OnlyWrites s (writePc (writeV s d x) p) d where
  vectors n h := by rw [readV_writePc, readV_writeV_other s x h]
  opmasks _ := rfl
  generals _ := rfl
  bytes _ := rfl
  memory := rfl
  status := rfl
  config := rfl

end Sys2Proof.Machine
end

