-- ==== Sys2Proof/Laws/Exec.lean ====
section
/-! SUPPORT. What the five forms can do, said once: `exec_next_iff` gives the next state of every instruction in terms
of its operands, and the statements about results, frames and non-interference follow from it. -/

namespace Sys2Proof.Machine

/-! ### Reserved fields, two ways -/

theorem vexReserved_eq (f : VexImm8) : vexReserved f = !f.valid := by
  simp [vexReserved, VexImm8.valid, bne]

theorem evexReserved_eq (c : EvexControl) (r : Bool) : evexReserved c r = !c.valid r := by
  simp only [evexReserved, EvexControl.valid, bne]
  cases c.p0Reserved == 0#2 <;> cases c.p1Fixed <;> cases c.z && c.aaa == 0#3 <;> cases c.b && r <;> rfl

theorem evexImm8Reserved_eq (f : EvexImm8) : evexImm8Reserved f = !f.valid := by
  simp only [evexImm8Reserved, EvexImm8.valid, evexReserved_eq, bne]
  cases f.vvvv == 0b1111#4 <;> cases f.vPrime <;> cases f.ctl.valid f.src.isReg <;> rfl

theorem evexVecReserved_eq (f : EvexVec) : evexVecReserved f = !f.valid := evexReserved_eq _ _

/-! ### The conditions under which a form gets to its operands -/

/-- Every check of R86 before the memory fault is passed. -/
structure Checked (i : Instr) (s : State) : Prop where
  mode64 : s.cfg.mode64 = true
  valid : i.valid = true
  usable : Usable s.cfg i
  notSwitched : s.cfg.taskSwitched = false

/-- The source element that destination element `j` takes (R63, R73). -/
def selector (s : State) : Instr → Nat → Nat
  | .vpermpdVex256Imm8 f, j => 4 * (j / 4) + immIndex f.imm j
  | .vpermpdEvex256Imm8 f, j => 4 * (j / 4) + immIndex f.imm j
  | .vpermpdEvex512Imm8 f, j => 4 * (j / 4) + immIndex f.imm j
  | .vpermpdEvex256Vec f, j => vecIndex .vl256 (readV s f.idx) j
  | .vpermpdEvex512Vec f, j => vecIndex .vl512 (readV s f.idx) j
  | .illegalVex128Imm8 _, _ => 0
  | .illegalEvex128Imm8 _, _ => 0
  | .illegalEvex128Vec _, _ => 0
  | .illegalEvexLl11Imm8 _, _ => 0
  | .illegalEvexLl11Vec _, _ => 0

/-- Element `j` below `KL` of the destination's new value. -/
def newElem (s : State) (i : Instr) (w : FormView) (j : Nat) : Qword :=
  maskedElem s w.aaa w.z j (qword (readV s w.dest) j)
    (sourceElem s i.length w.scale w.bcast w.src (selector s i j))

/-- The destination's new value. -/
def newDest (s : State) (i : Instr) (w : FormView) : Zmm :=
  ofElems fun j => if j < kl w.vl then newElem s i w j else 0#64

theorem selector_lt {s : State} {i : Instr} {w : FormView} (hw : viewOf i = some w) {j : Nat} (hj : j < kl w.vl) :
    selector s i j < kl w.vl := by
  cases i <;> simp only [viewOf, Option.some.injEq, reduceCtorEq] at hw <;> subst hw
  · exact permImm_index_lt _ hj
  · exact permImm_index_lt _ hj
  · exact permImm_index_lt _ hj
  · exact vecIndex_lt _ _ _
  · exact vecIndex_lt _ _ _

theorem qword_newDest {s : State} {i : Instr} {w : FormView} {j : Nat} (hj : j < kl w.vl) :
    qword (newDest s i w) j = newElem s i w j := qword_ofElems_lt _ hj

theorem qword_newDest_ge {s : State} {i : Instr} {w : FormView} {j : Nat} (hj : kl w.vl ≤ j) :
    qword (newDest s i w) j = 0#64 := qword_ofElems_ge _ hj

/-- The masked write-back in the words of the claims. -/
theorem maskedElem_eq (s : State) (c : EvexControl) (j : Nat) (old new : Qword) :
    (if !useMask c || (readK s c.aaa).getLsbD j then new else if c.z then 0#64 else old) =
      maskedElem s c.aaa c.z j old new := by
  simp only [useMask, maskedElem]
  by_cases h : c.aaa = 0#3 <;> simp [h]

/-- A value whose elements are those of `newDest` is `newDest`. -/
theorem eq_newDest {s : State} {i : Instr} {w : FormView} {x : Zmm} (hlt : ∀ j, j < kl w.vl → qword x j = newElem s i w j)
    (hge : ∀ j, kl w.vl ≤ j → qword x j = 0#64) : x = newDest s i w := by
  refine ext_qword fun j _ => ?_
  by_cases hj : j < kl w.vl
  · rw [hlt j hj, qword_newDest hj]
  · rw [hge j (by omega), qword_newDest_ge (by omega)]

/-- The write-back of an EVEX form, given the permuted value's elements. -/
theorem applyMask_eq_newDest {s : State} {i : Instr} {vl : VectorLength} {full : Nat} {d : BitVec 5}
    {ix : Option (BitVec 5)} {src : RmOperand 5} {c : EvexControl} {tmp : Zmm}
    (h : ∀ j, j < kl vl → qword tmp j =
      sourceElem s i.length (evexView vl full d ix src c).scale c.b src (selector s i j)) :
    applyMask vl (readV s d) tmp (useMask c) (readK s c.aaa) c.z = newDest s i (evexView vl full d ix src c) := by
  refine eq_newDest (fun j hj => ?_) (fun j hj => qword_applyMask_ge _ _ _ _ _ hj)
  have hj : j < kl vl := hj
  rw [qword_applyMask _ _ _ _ _ hj, maskedElem_eq, h j hj]
  rfl

/-! ### The next state of every instruction -/

/-- One EVEX imm8 form, for any vector length. -/
theorem runEvexImm8_next {vl : VectorLength} {usable : Bool} {f : EvexImm8} {s t : State} :
    runEvexImm8 vl usable f s = .next t ↔
      s.cfg.mode64 = true ∧ f.valid = true ∧ usable = true ∧ s.cfg.taskSwitched = false ∧
      ∃ v, loadSrc s vl f.ctl.b f.length (disp8Scale vl f.ctl.b) f.src = .value v ∧
        t = writePc (writeV s f.dest (applyMask vl (readV s f.dest) (permImm vl v f.imm) (useMask f.ctl)
          (readK s f.ctl.aaa) f.ctl.z)) (s.pc + BitVec.ofNat 64 f.length) := by
  rw [runEvexImm8, afterChecks_next, evexImm8Reserved_eq, withSource_next]
  simp only [completeMasked, complete, Host.Outcome.next.injEq, Bool.not_eq_false', eq_comm (b := t)]

/-- One EVEX vector-control form, for any vector length. -/
theorem runEvexVec_next {vl : VectorLength} {usable : Bool} {f : EvexVec} {s t : State} :
    runEvexVec vl usable f s = .next t ↔
      s.cfg.mode64 = true ∧ f.valid = true ∧ usable = true ∧ s.cfg.taskSwitched = false ∧
      ∃ v, loadSrc s vl f.ctl.b f.length (disp8Scale vl f.ctl.b) f.src = .value v ∧
        t = writePc (writeV s f.dest (applyMask vl (readV s f.dest)
          (permVec vl (lowVl vl (readV s f.idx)) v) (useMask f.ctl)
          (readK s f.ctl.aaa) f.ctl.z)) (s.pc + BitVec.ofNat 64 f.length) := by
  rw [runEvexVec, afterChecks_next, evexVecReserved_eq, withSource_next]
  simp only [completeMasked, complete, Host.Outcome.next.injEq, Bool.not_eq_false', eq_comm (b := t)]

theorem vecIndex_lowVl {vl : VectorLength} (x : Zmm) {j : Nat} (hj : j < kl vl) :
    vecIndex vl (lowVl vl x) j = vecIndex vl x j := by
  rw [vecIndex, qword_lowVl x hj, vecIndex]

theorem scale_eq (vl : VectorLength) (b : Bool) : disp8Scale vl b = if b then 8 else vlBits vl / 8 := rfl

theorem bytes_eq (vl : VectorLength) (b : Bool) : operandBytes vl b = if b then 8 else vlBits vl / 8 := rfl

/-- A value loaded determines the next state's destination; both directions of reading the source. -/
theorem exists_loaded {s : State} {vl : VectorLength} {b : Bool} {len n : Nat} {src : RmOperand 5} {P : Zmm → Prop}
    {Q : Prop} (h : ∀ v, (∀ j, j < kl vl → qword v j = sourceElem s len n b src j) → (P v ↔ Q)) :
    (∃ v, loadSrc s vl b len n src = .value v ∧ P v) ↔ SourceReadable s len n (operandBytes vl b) src ∧ Q := by
  constructor
  · rintro ⟨v, hv, hp⟩
    obtain ⟨hr, hq⟩ := loadSrc_value hv
    exact ⟨hr, (h v hq).1 hp⟩
  · rintro ⟨hr, hq⟩
    obtain ⟨v, hv⟩ := loadSrc_of_readable hr
    exact ⟨v, hv, (h v (loadSrc_value hv).2).2 hq⟩

/-- The next state of an instruction whose operands are `w`. -/
def nextState (s : State) (i : Instr) (w : FormView) : State :=
  writePc (writeV s w.dest (newDest s i w)) (s.pc + BitVec.ofNat 64 i.length)

/-- An EVEX imm8 form in the words of the claims. -/
theorem evexImm8_next {vl : VectorLength} {usable : Bool} {f : EvexImm8} {s t : State} {i : Instr}
    (hlen : i.length = f.length) (hsel : ∀ j, selector s i j = 4 * (j / 4) + immIndex f.imm j) :
    runEvexImm8 vl usable f s = .next t ↔
      (s.cfg.mode64 = true ∧ f.valid = true ∧ usable = true ∧ s.cfg.taskSwitched = false) ∧
      SourceReadable s i.length (if f.ctl.b then 8 else vlBits vl / 8) (if f.ctl.b then 8 else vlBits vl / 8) f.src ∧
      t = nextState s i (evexView vl (vlBits vl / 8) f.dest none f.src f.ctl) := by
  rw [runEvexImm8_next, exists_loaded (Q := t = nextState s i (evexView vl (vlBits vl / 8) f.dest none f.src f.ctl)),
    hlen, bytes_eq, scale_eq]
  · tauto
  · intro v hv
    rw [applyMask_eq_newDest (i := i) (full := vlBits vl / 8) (ix := none) (src := f.src), nextState, hlen]
    · rfl
    · intro j hj
      rw [qword_permImm v f.imm hj, hv _ (permImm_index_lt _ hj), hsel, hlen]
      rfl

/-- An EVEX vector-control form in the words of the claims. -/
theorem evexVec_next {vl : VectorLength} {usable : Bool} {f : EvexVec} {s t : State} {i : Instr}
    (hlen : i.length = f.length) (hsel : ∀ j, selector s i j = vecIndex vl (readV s f.idx) j) :
    runEvexVec vl usable f s = .next t ↔
      (s.cfg.mode64 = true ∧ f.valid = true ∧ usable = true ∧ s.cfg.taskSwitched = false) ∧
      SourceReadable s i.length (if f.ctl.b then 8 else vlBits vl / 8) (if f.ctl.b then 8 else vlBits vl / 8) f.src ∧
      t = nextState s i (evexView vl (vlBits vl / 8) f.dest (some f.idx) f.src f.ctl) := by
  rw [runEvexVec_next,
    exists_loaded (Q := t = nextState s i (evexView vl (vlBits vl / 8) f.dest (some f.idx) f.src f.ctl)),
    hlen, bytes_eq, scale_eq]
  · tauto
  · intro v hv
    rw [applyMask_eq_newDest (i := i) (full := vlBits vl / 8) (ix := some f.idx) (src := f.src), nextState, hlen]
    · rfl
    · intro j hj
      rw [qword_permVec _ v hj, vecIndex_lowVl _ hj, hv _ (vecIndex_lt _ _ _), hsel, hlen]
      rfl

/-- The VEX form in the words of the claims. -/
theorem vexImm8_next {f : VexImm8} {s t : State} {w : FormView} (hw : viewOf (.vpermpdVex256Imm8 f) = some w) :
    execVpermpdVex256Imm8 f s = .next t ↔
      (s.cfg.mode64 = true ∧ f.valid = true ∧ avx2Usable s.cfg = true ∧ s.cfg.taskSwitched = false) ∧
      SourceReadable s f.length w.scale w.bytes w.src ∧ t = nextState s (.vpermpdVex256Imm8 f) w := by
  simp only [viewOf, Option.some.injEq] at hw
  subst hw
  rw [execVpermpdVex256Imm8, afterChecks_next, vexReserved_eq, withSource_next]
  simp only [complete, Host.Outcome.next.injEq, Bool.not_eq_false', eq_comm (b := t)]
  rw [show (RmOperand.mapReg vexReg f.src) = f.src.mapReg fun n => n.setWidth 5 from rfl,
    exists_loaded (Q := t = nextState s (.vpermpdVex256Imm8 f) _)]
  · simp only [operandBytes]
    tauto
  · intro v hv
    rw [nextState]
    rw [eq_newDest (x := applyMask .vl256 (readV s (vexReg f.dest)) (permImm .vl256 v f.imm) false 0#64 false)]
    · rfl
    · intro j hj
      have hj : j < kl .vl256 := hj
      rw [qword_applyMask _ _ _ _ _ hj, qword_permImm v f.imm hj, hv _ (permImm_index_lt _ hj)]
      rfl
    · exact fun j hj => qword_applyMask_ge _ _ _ _ _ hj

/-- The next state of every instruction, and the conditions under which there is one. -/
theorem exec_next_iff {i : Instr} {s t : State} :
    exec i s = .next t ↔ ∃ w, viewOf i = some w ∧ Checked i s ∧ SourceReadable s i.length w.scale w.bytes w.src ∧
      t = nextState s i w := by
  have checked : ∀ {j : Instr}, Checked j s ↔
      s.cfg.mode64 = true ∧ j.valid = true ∧ Usable s.cfg j ∧ s.cfg.taskSwitched = false :=
    ⟨fun h => ⟨h.1, h.2, h.3, h.4⟩, fun h => ⟨h.1, h.2.1, h.2.2.1, h.2.2.2⟩⟩
  cases i with
  | vpermpdVex256Imm8 f =>
    rw [exec, vexImm8_next rfl]
    simp only [viewOf, Option.some.injEq, exists_eq_left', checked, Usable, avx2Usable, Bool.and_eq_true]
    rfl
  | vpermpdEvex256Imm8 f =>
    rw [exec, execVpermpdEvex256Imm8, evexImm8_next (i := .vpermpdEvex256Imm8 f) rfl fun _ => rfl]
    simp only [viewOf, Option.some.injEq, exists_eq_left', checked, Usable, avx512vlUsable, Bool.and_eq_true, and_assoc]
    rfl
  | vpermpdEvex512Imm8 f =>
    rw [exec, execVpermpdEvex512Imm8, evexImm8_next (i := .vpermpdEvex512Imm8 f) rfl fun _ => rfl]
    simp only [viewOf, Option.some.injEq, exists_eq_left', checked, Usable, avx512fUsable, Bool.and_eq_true, and_assoc]
    rfl
  | vpermpdEvex256Vec f =>
    rw [exec, execVpermpdEvex256Vec, evexVec_next (i := .vpermpdEvex256Vec f) rfl fun _ => rfl]
    simp only [viewOf, Option.some.injEq, exists_eq_left', checked, Usable, avx512vlUsable, Bool.and_eq_true, and_assoc]
    rfl
  | vpermpdEvex512Vec f =>
    rw [exec, execVpermpdEvex512Vec, evexVec_next (i := .vpermpdEvex512Vec f) rfl fun _ => rfl]
    simp only [viewOf, Option.some.injEq, exists_eq_left', checked, Usable, avx512fUsable, Bool.and_eq_true, and_assoc]
    rfl
  | illegalVex128Imm8 f => simp [exec, execIllegalVex128Imm8, raiseUd, viewOf]
  | illegalEvex128Imm8 f => simp [exec, execIllegalEvex128Imm8, raiseUd, viewOf]
  | illegalEvex128Vec f => simp [exec, execIllegalEvex128Vec, raiseUd, viewOf]
  | illegalEvexLl11Imm8 f => simp [exec, execIllegalEvexLl11Imm8, raiseUd, viewOf]
  | illegalEvexLl11Vec f => simp [exec, execIllegalEvexLl11Vec, raiseUd, viewOf]

end Sys2Proof.Machine
end

