-- ==== Sys2Proof/Laws/Memory.lean ====
section
/-! SUPPORT. Memory's canonical form is kept by every memory operation; reading after writing. -/

namespace Sys2Proof.Machine

theorem Memory.wf_iff {m : Memory} :
    m.wf = true ↔ (m.Pairwise fun c d => c.1 < d.1) ∧ ∀ c ∈ m, c.1 < 2 ^ 64 ∧ c.2 ≠ unlistedByte := by
  simp [Memory.wf]

@[simp] theorem Memory.wf_nil : Memory.wf [] = true := by simp [Memory.wf]

theorem Memory.wf_cons {a : Nat} {x : Byte} {m : Memory} :
    Memory.wf ((a, x) :: m) = true ↔
      a < 2 ^ 64 ∧ x ≠ unlistedByte ∧ (∀ c ∈ m, a < c.1) ∧ m.wf = true := by
  simp only [Memory.wf_iff, List.pairwise_cons, List.mem_cons, forall_eq_or_imp]
  tauto

/-- An address below every listed one reads as unlisted. -/
theorem Memory.read_below {a : Nat} {m : Memory} (h : ∀ c ∈ m, a < c.1) : m.read a = unlistedByte := by
  induction m with
  | nil => rfl
  | cons c rest ih =>
    obtain ⟨b, y⟩ := c
    have hb := h (b, y) (by simp)
    have : a ≠ b := by simp at hb; omega
    simp only [Memory.read, this, if_false]
    exact ih fun c hc => h c (by simp [hc])

theorem Memory.wf_consCell {a : Nat} {x : Byte} {m : Memory} (ha : a < 2 ^ 64) (h : ∀ c ∈ m, a < c.1)
    (hm : m.wf = true) : (Memory.cons a x m).wf = true := by
  unfold Memory.cons
  split
  · exact hm
  · rename_i hx
    exact Memory.wf_cons.2 ⟨ha, hx, h, hm⟩

theorem Memory.mem_consCell {a : Nat} {x : Byte} {m : Memory} {c : Host.Cell} (h : c ∈ Memory.cons a x m) :
    c.1 = a ∨ c ∈ m := by
  unfold Memory.cons at h
  split at h
  · exact .inr h
  · rcases List.mem_cons.1 h with rfl | h
    · exact .inl rfl
    · exact .inr h

/-- A write lists no address but its own and those listed before. -/
theorem Memory.mem_write {a : Nat} {x : Byte} {m : Memory} {c : Host.Cell} (h : c ∈ m.write a x) :
    c.1 = a ∨ c ∈ m := by
  induction m with
  | nil => exact Memory.mem_consCell h
  | cons d rest ih =>
    obtain ⟨b, y⟩ := d
    simp only [Memory.write] at h
    split at h
    · exact Memory.mem_consCell h
    · split at h
      · exact (Memory.mem_consCell h).imp_right fun h => by simp [h]
      · rcases List.mem_cons.1 h with rfl | h
        · simp
        · exact (ih h).imp_right fun h => by simp [h]

/-- A write keeps the canonical form. -/
theorem Memory.write_wf {a : Nat} {x : Byte} {m : Memory} (ha : a < 2 ^ 64) (hm : m.wf = true) :
    (m.write a x).wf = true := by
  induction m with
  | nil => exact Memory.wf_consCell ha (by simp) hm
  | cons d rest ih =>
    obtain ⟨b, y⟩ := d
    obtain ⟨hb, hy, hlt, hrest⟩ := Memory.wf_cons.1 hm
    simp only [Memory.write]
    split
    · rename_i hab
      refine Memory.wf_consCell ha (fun c hc => ?_) hm
      rcases List.mem_cons.1 hc with rfl | hc
      · exact hab
      · exact hab.trans (hlt c hc)
    · rename_i hab
      split
      · rename_i heq
        subst heq
        exact Memory.wf_consCell ha hlt hrest
      · refine Memory.wf_cons.2 ⟨hb, hy, fun c hc => ?_, ih hrest⟩
        rcases Memory.mem_write hc with h | h
        · omega
        · exact hlt c h

theorem Memory.read_consCell {a c : Nat} {x : Byte} {m : Memory} (h : ∀ d ∈ m, a < d.1) :
    (Memory.cons a x m).read c = if c = a then x else m.read c := by
  unfold Memory.cons
  split
  · rename_i hx
    split
    · rename_i hc
      rw [hc, hx, Memory.read_below h]
    · rfl
  · rfl

/-- Reading after a write: the written byte at its address, the old byte everywhere else. -/
theorem Memory.read_write {a c : Nat} {x : Byte} {m : Memory} (hm : m.wf = true) :
    (m.write a x).read c = if c = a then x else m.read c := by
  induction m with
  | nil => simpa [Memory.write, Memory.read] using Memory.read_consCell (c := c) (x := x) (m := []) (by simp)
  | cons d rest ih =>
    obtain ⟨b, y⟩ := d
    obtain ⟨hb, hy, hlt, hrest⟩ := Memory.wf_cons.1 hm
    simp only [Memory.write]
    split
    · rename_i hab
      refine Memory.read_consCell fun d hd => ?_
      rcases List.mem_cons.1 hd with rfl | hd
      · exact hab
      · exact hab.trans (hlt d hd)
    · split
      · rename_i heq
        subst heq
        rw [Memory.read_consCell hlt]
        by_cases hc : c = a <;> simp [Memory.read, hc]
      · rename_i hne
        simp only [Memory.read, ih hrest]
        by_cases hc : c = b
        · subst hc
          simp only [if_true, if_neg fun h : c = a => hne h.symm]
        · simp [hc]

/-- Storing bytes keeps the canonical form. -/
theorem storeBytes_wf (bs : List Byte) (a : Word) (m : Memory) (hm : m.wf = true) :
    (storeBytes a bs m).wf = true := by
  induction bs generalizing a m with
  | nil => exact hm
  | cons b rest ih => exact ih _ _ (Memory.write_wf a.isLt hm)

/-- Reading after storing bytes: the byte stored at the address, where one is, else the old byte. -/
theorem storeBytes_read (bs : List Byte) (a : Word) (mem : Memory) (hm : mem.wf = true) (hl : bs.length < 2 ^ 64)
    (c : Word) :
    (storeBytes a bs mem).read c.toNat =
      if h : (c - a).toNat < bs.length then bs[(c - a).toNat] else mem.read c.toNat := by
  induction bs generalizing a mem with
  | nil => simp [storeBytes]
  | cons b rest ih =>
    simp only [List.length_cons] at hl
    rw [storeBytes, ih _ _ (Memory.write_wf a.isLt hm) (by omega), Memory.read_write hm]
    by_cases hca : c = a
    · subst hca
      have h1 : (c - (c + 1#64)).toNat = 2 ^ 64 - 1 := by bv_omega
      have h2 : (c - c).toNat = 0 := by bv_omega
      rw [dif_neg (by omega), if_pos rfl, dif_pos (by simp)]
      simp only [h2, List.getElem_cons_zero]
    · have h1 : (c - a).toNat = (c - (a + 1#64)).toNat + 1 := by bv_omega
      have h2 : ¬c.toNat = a.toNat := fun h => hca (BitVec.eq_of_toNat_eq h)
      rw [if_neg h2]
      by_cases h : (c - (a + 1#64)).toNat < rest.length
      · rw [dif_pos h, dif_pos (by simp only [List.length_cons]; omega)]
        simp only [h1, List.getElem_cons_succ]
      · rw [dif_neg h, dif_neg (by simp only [List.length_cons]; omega)]

/-- An address that no rule of `Translate` covers translates to itself. -/
theorem translate_of_uncovered {rules : List TranslateRule} {a : Word} (h : ∀ q ∈ rules, inRange q.range a = false) :
    translate rules a = a := by
  induction rules with
  | nil => rfl
  | cons q rest ih =>
    rw [translate, if_neg (by simp [h q (by simp)])]
    exact ih fun q hq => h q (by simp [hq])

end Sys2Proof.Machine
end

