-- ==== Sys2Proof/Laws/PerInstr.lean ====
section
/-! SUPPORT. Statements about every instruction as syntax, one lemma for each constructor. -/

namespace Sys2Proof.Laws.EncodingInRow

-- One proof at a time: many evaluations at once take more memory than the check allows.
set_option Elab.async false

/-- The encoder's bytes lie in the instruction's row of spec/opcode_table.json, whatever the operands and the reserved
fields hold. -/
def Statement (i : Instr) : Prop := i.row.accepts (encode i) = true

/-- The first variable byte of a VEX prefix under the row's mask. -/
theorem vexByte1 (r x b : Bool) :
    BitVec.ofBool r ++ BitVec.ofBool x ++ BitVec.ofBool b ++ 3#5 &&& 31#8 = 3#8 := by
  revert r x b
  decide

/-- The second, for the two values of `VEX.L`. -/
theorem vexByte2 (v : BitVec 4) : 1#1 ++ v ++ 1#1 ++ 1#2 &&& 135#8 = 133#8 ∧ 1#1 ++ v ++ 0#1 ++ 1#2 &&& 135#8 = 129#8 := by
  revert v
  decide

/-- The first variable byte of an EVEX prefix under the row's mask, for the two maps. -/
theorem evexByte1 (r x b r' : Bool) (p : BitVec 2) :
    BitVec.ofBool r ++ BitVec.ofBool x ++ BitVec.ofBool b ++ BitVec.ofBool r' ++ p ++ 3#2 &&& 3#8 = 3#8 ∧
    BitVec.ofBool r ++ BitVec.ofBool x ++ BitVec.ofBool b ++ BitVec.ofBool r' ++ p ++ 2#2 &&& 3#8 = 2#8 := by
  revert r x b r' p
  decide

/-- The second. -/
theorem evexByte2 (v : BitVec 4) (f : Bool) : 1#1 ++ v ++ BitVec.ofBool f ++ 1#2 &&& 131#8 = 129#8 := by
  revert v f
  decide

/-- The third, for the four values of `EVEX.L'L`. -/
theorem evexByte3 (z b v' : Bool) (aaa : BitVec 3) :
    BitVec.ofBool z ++ 0#2 ++ BitVec.ofBool b ++ BitVec.ofBool v' ++ aaa &&& 96#8 = 0#8 ∧
    BitVec.ofBool z ++ 1#2 ++ BitVec.ofBool b ++ BitVec.ofBool v' ++ aaa &&& 96#8 = 32#8 ∧
    BitVec.ofBool z ++ 2#2 ++ BitVec.ofBool b ++ BitVec.ofBool v' ++ aaa &&& 96#8 = 64#8 ∧
    BitVec.ofBool z ++ 3#2 ++ BitVec.ofBool b ++ BitVec.ofBool v' ++ aaa &&& 96#8 = 96#8 := by
  revert z b v' aaa
  decide

theorem vpermpdVex256Imm8 (f : VexImm8) : Statement (.vpermpdVex256Imm8 f) := by
  simp [Statement, OpcodeRow.accepts, Instr.row, encode, encodeVex, vexByte1, vexByte2]

theorem vpermpdEvex256Imm8 (f : EvexImm8) : Statement (.vpermpdEvex256Imm8 f) := by
  simp [Statement, OpcodeRow.accepts, Instr.row, encode, encodeEvexImm8, encodeEvexPrefix, evexByte1, evexByte2,
    evexByte3]

theorem vpermpdEvex512Imm8 (f : EvexImm8) : Statement (.vpermpdEvex512Imm8 f) := by
  simp [Statement, OpcodeRow.accepts, Instr.row, encode, encodeEvexImm8, encodeEvexPrefix, evexByte1, evexByte2,
    evexByte3]

theorem vpermpdEvex256Vec (f : EvexVec) : Statement (.vpermpdEvex256Vec f) := by
  simp [Statement, OpcodeRow.accepts, Instr.row, encode, encodeEvexVec, encodeEvexPrefix, evexByte1, evexByte2,
    evexByte3]

theorem vpermpdEvex512Vec (f : EvexVec) : Statement (.vpermpdEvex512Vec f) := by
  simp [Statement, OpcodeRow.accepts, Instr.row, encode, encodeEvexVec, encodeEvexPrefix, evexByte1, evexByte2,
    evexByte3]

theorem illegalVex128Imm8 (f : VexImm8) : Statement (.illegalVex128Imm8 f) := by
  simp [Statement, OpcodeRow.accepts, Instr.row, encode, encodeVex, vexByte1, vexByte2]

theorem illegalEvex128Imm8 (f : EvexImm8) : Statement (.illegalEvex128Imm8 f) := by
  simp [Statement, OpcodeRow.accepts, Instr.row, encode, encodeEvexImm8, encodeEvexPrefix, evexByte1, evexByte2,
    evexByte3]

theorem illegalEvex128Vec (f : EvexVec) : Statement (.illegalEvex128Vec f) := by
  simp [Statement, OpcodeRow.accepts, Instr.row, encode, encodeEvexVec, encodeEvexPrefix, evexByte1, evexByte2,
    evexByte3]

theorem illegalEvexLl11Imm8 (f : EvexImm8) : Statement (.illegalEvexLl11Imm8 f) := by
  simp [Statement, OpcodeRow.accepts, Instr.row, encode, encodeEvexImm8, encodeEvexPrefix, evexByte1, evexByte2,
    evexByte3]

theorem illegalEvexLl11Vec (f : EvexVec) : Statement (.illegalEvexLl11Vec f) := by
  simp [Statement, OpcodeRow.accepts, Instr.row, encode, encodeEvexVec, encodeEvexPrefix, evexByte1, evexByte2,
    evexByte3]

end Sys2Proof.Laws.EncodingInRow
end

