-- ==== Sys2Proof/Laws/Step.lean ====
section
/-! SUPPORT. What a step that answers a next state has done, said once. -/

namespace Sys2Proof.Machine

/-- A step that answers a next state ran the instruction decoded at `pc`: every check passed, and the state is that
instruction's next state. -/
theorem step_next {s t : State} (h : step s = .next t) :
    ∃ i rest w, decode (fetchBytes s) = .instr i rest ∧ s.cfg.mode64 = true ∧ fetchable s i.length = true ∧
      viewOf i = some w ∧ Checked i s ∧ SourceReadable s i.length w.scale w.bytes w.src ∧ t = nextState s i w := by
  have key : ∀ d : Decoded, runDecoded d s = .next t →
      ∃ i rest, d = .instr i rest ∧ fetchable s i.length = true ∧ exec i s = .next t := by
    intro d hd
    cases d with
    | instr i rest =>
      by_cases hf : fetchable s i.length = true
      · exact ⟨i, rest, rfl, hf, by simpa [runDecoded, hf] using hd⟩
      · simp [runDecoded, hf] at hd
    | ud n => by_cases hf : fetchable s n = true <;> simp [runDecoded, hf, raiseUd] at hd
    | rejected r => simp [runDecoded] at hd
  by_cases hm : s.cfg.mode64 = true
  · obtain ⟨i, rest, hd, hf, hx⟩ := key _ (by simpa [step, hm] using h)
    obtain ⟨w, hw, hc, hr, ht⟩ := exec_next_iff.1 hx
    exact ⟨i, rest, w, hd, hm, hf, hw, hc, hr, ht⟩
  · simp [step, hm] at h

end Sys2Proof.Machine
end

