-- ==== Sys2Proof/Tests/Slice0.lean ====
section
/-! SUPPORT. The model's own tests: the checks of WellFormed, decoding of words written out from the spec's encodings,
one step of the vectors of spec/95_test_vectors.md (named after their ids there), and for every statement with
hypotheses a concrete state and operands that meet them. -/

namespace Sys2Proof.Tests

-- One proof at a time: many evaluations at once take more memory than the check allows.
set_option Elab.async false

open Sys2Proof.Machine

/-! ### Reading an outcome -/

def stateOf : Result → Option State
  | .next s => some s
  | .fault _ => none
  | .refused _ => none

def faultOf : Result → Option Fault
  | .next _ => none
  | .fault x => some x
  | .refused _ => none

def refusalOf : Result → Option Refusal
  | .next _ => none
  | .fault _ => none
  | .refused r => some r

theorem next_of_stateOf {r : Result} (h : (stateOf r).isSome = true) : ∃ t, r = .next t := by
  cases r with
  | next s => exact ⟨s, rfl⟩
  | fault x => simp [stateOf] at h
  | refused x => simp [stateOf] at h

theorem fault_of_faultOf {r : Result} {x : Fault} (h : faultOf r = some x) : r = .fault x := by
  cases r with
  | next s => simp [faultOf] at h
  | fault y => simpa [faultOf] using h
  | refused y => simp [faultOf] at h

theorem fault_of_isSome {r : Result} (h : (faultOf r).isSome = true) : ∃ x, r = .fault x := by
  cases r with
  | next s => simp [faultOf] at h
  | fault y => exact ⟨y, rfl⟩
  | refused y => simp [faultOf] at h

/-- The eight elements of a register. -/
def elems (s : State) (n : BitVec 5) : List Qword := (List.range 8).map fun j => qword (readV s n) j

/-- The elements of a register after the step, if there is a next state. -/
def after (s : State) (n : BitVec 5) : Option (List Qword) := (stateOf (step s)).map fun t => elems t n

/-! ### The fixed data of spec/95_test_vectors.md section 0 -/

def a (j : Nat) : Qword := 0xA0A0A0A0A0A0A000 + BitVec.ofNat 64 j
def b (j : Nat) : Qword := 0xB0B0B0B0B0B0B000 + BitVec.ofNat 64 j
def d (j : Nat) : Qword := 0xD0D0D0D0D0D0D000 + BitVec.ofNat 64 j
def m (j : Nat) : Qword := 0xC0C0C0C0C0C0C000 + BitVec.ofNat 64 j

/-- The index vector `I`. -/
def idxI : Zmm := ofElems fun j => [7, 0x8000000000000006, 0xFFFFFFFFFFFFFFF8, 0x0B, 3, 3, 0, 0x0D][j]?.getD 0

/-- The bytes of `m0` to `m7`, least significant first. -/
def dataBytes : List Byte :=
  (List.range 64).map fun k => if k % 8 = 0 then BitVec.ofNat 8 (k / 8) else 0xC0

/-- `V[1] = d`, `V[2] = a`, `V[3] = b`, `G[0] = 1000h` where `m` lies, `K[1] = k1`, a program at 0. -/
def start (k1 : BitVec 64) (program : List Byte) : State :=
  placeAtPc program
    { State.reset with
      v := ((State.reset.v.set 1 (ofElems d)).set 2 (ofElems a)).set 3 (ofElems b)
      k := State.reset.k.set 1 k1
      g := State.reset.g.set 0 0x1000
      mem := storeBytes 0x1000 dataBytes [] }

/-- The same with `V[n]` set. -/
def startV (n : BitVec 5) (x : Zmm) (k1 : BitVec 64) (program : List Byte) : State :=
  writeV (start k1 program) n x

/-- The same with a page that cannot be read from `first` on. -/
def startFault (first : Word) (k1 : BitVec 64) (program : List Byte) : State :=
  let s := start k1 program
  { s with cfg := { s.cfg with memFault :=
      [{ scope := .touching ⟨first, 0xFFFF⟩, exception := .pageFault 4 first }] } }

/-- The same with other parameters. -/
def startCfg (f : Config → Config) (program : List Byte) : State :=
  let s := start 0 program
  { s with cfg := f s.cfg }

/-! ### WellFormed: one ill-formed term for each check -/

def bytesVexReg : List Byte := [0xC4, 0xE3, 0xFD, 0x01, 0xCA, 0x1B]
def plainCtl : EvexControl := ⟨0, false, false, 0, true⟩
def vexReg2 : VexImm8 := { dest := 1, src := .reg 2, imm := 0x1B, vvvv := 15 }
def evexReg2 : EvexImm8 := { dest := 1, src := .reg 2, imm := 0x1B, ctl := plainCtl, vvvv := 15, vPrime := true }
def evexReg3 : EvexVec := { dest := 1, idx := 2, src := .reg 3, ctl := plainCtl }

theorem test_wellFormed_accepts :
    (Instr.vpermpdVex256Imm8 vexReg2).wellFormed = true ∧ (Instr.vpermpdEvex256Imm8 evexReg2).wellFormed = true ∧
    (Instr.vpermpdEvex512Imm8 evexReg2).wellFormed = true ∧ (Instr.vpermpdEvex256Vec evexReg3).wellFormed = true ∧
    (Instr.vpermpdEvex512Vec evexReg3).wellFormed = true := by decide

theorem test_wellFormed_refuses_base_rsp :
    (Instr.vpermpdVex256Imm8 { vexReg2 with src := .mem (.base 12 .none) }).wellFormed = false := by decide

theorem test_wellFormed_refuses_base_rbp_without_disp :
    (Instr.vpermpdEvex256Imm8 { evexReg2 with src := .mem (.base 13 .none) }).wellFormed = false := by decide

theorem test_wellFormed_refuses_sib_base_rbp_without_disp :
    (Instr.vpermpdEvex512Vec { evexReg3 with src := .mem (.sib 0 1 5 .none) }).wellFormed = false := by decide

theorem test_wellFormed_refuses_vex_vvvv :
    (Instr.vpermpdVex256Imm8 { vexReg2 with vvvv := 14 }).wellFormed = false := by decide

theorem test_wellFormed_refuses_evex_vvvv :
    (Instr.vpermpdEvex512Imm8 { evexReg2 with vvvv := 14 }).wellFormed = false := by decide

theorem test_wellFormed_refuses_vPrime :
    (Instr.vpermpdEvex256Imm8 { evexReg2 with vPrime := false }).wellFormed = false := by decide

theorem test_wellFormed_refuses_p0Reserved :
    (Instr.vpermpdEvex256Vec { evexReg3 with ctl := { plainCtl with p0Reserved := 1 } }).wellFormed = false := by decide

theorem test_wellFormed_refuses_p1Fixed :
    (Instr.vpermpdEvex512Vec { evexReg3 with ctl := { plainCtl with p1Fixed := false } }).wellFormed = false := by decide

theorem test_wellFormed_refuses_zeroing_without_mask :
    (Instr.vpermpdEvex256Imm8 { evexReg2 with ctl := { plainCtl with z := true } }).wellFormed = false := by decide

theorem test_wellFormed_refuses_broadcast_of_register :
    (Instr.vpermpdEvex512Imm8 { evexReg2 with ctl := { plainCtl with b := true } }).wellFormed = false := by decide

theorem test_wellFormed_refuses_length_values :
    (Instr.illegalVex128Imm8 vexReg2).wellFormed = false ∧ (Instr.illegalEvex128Imm8 evexReg2).wellFormed = false ∧
    (Instr.illegalEvex128Vec evexReg3).wellFormed = false ∧ (Instr.illegalEvexLl11Imm8 evexReg2).wellFormed = false ∧
    (Instr.illegalEvexLl11Vec evexReg3).wellFormed = false := by decide

/-! ### Decoding words written out from the spec -/

/-- A1, A14 and H2 (R42, R47). -/
theorem test_decode_vex256_imm8 :
    decode [0xC4, 0xE3, 0xFD, 0x01, 0xCA, 0x1B] = .instr (.vpermpdVex256Imm8 vexReg2) [] ∧
    decode [0xC4, 0x43, 0xFD, 0x01, 0xCA, 0x4E] =
      .instr (.vpermpdVex256Imm8 { dest := 9, src := .reg 10, imm := 0x4E, vvvv := 15 }) [] ∧
    decode [0xC4, 0x03, 0xFD, 0x01, 0x4C, 0xA5, 0x40, 0x1B, 0x90] =
      .instr (.vpermpdVex256Imm8 { dest := 9, src := .mem (.sib 2 12 13 (.disp8 0x40)), imm := 0x1B, vvvv := 15 })
        [0x90] := by decide

/-- B3 and H8. -/
theorem test_decode_evex256_imm8 :
    decode [0x62, 0xF3, 0xFD, 0xA9, 0x01, 0xCA, 0x1B] =
      .instr (.vpermpdEvex256Imm8 { evexReg2 with ctl := ⟨1, true, false, 0, true⟩ }) [] ∧
    decode [0x62, 0xF3, 0xFD, 0x3A, 0x01, 0x48, 0x01, 0x1B] =
      .instr (.vpermpdEvex256Imm8 { evexReg2 with
        src := .mem (.base 0 (.disp8 1)), ctl := ⟨2, false, true, 0, true⟩ }) [] := by decide

/-- C9, H4 and H6. -/
theorem test_decode_evex512_imm8 :
    decode [0x62, 0x23, 0xFD, 0xCB, 0x01, 0xCA, 0x1B] =
      .instr (.vpermpdEvex512Imm8 { evexReg2 with dest := 25, src := .reg 18, ctl := ⟨3, true, false, 0, true⟩ }) [] ∧
    decode [0x62, 0xF3, 0xFD, 0x48, 0x01, 0x88, 0x48, 0x00, 0x00, 0x00, 0x1B] =
      .instr (.vpermpdEvex512Imm8 { evexReg2 with src := .mem (.base 0 (.disp32 0x48)) }) [] ∧
    decode [0x62, 0xF3, 0xFD, 0x48, 0x01, 0x0C, 0x24, 0x1B] =
      .instr (.vpermpdEvex512Imm8 { evexReg2 with src := .mem (.sib 0 4 4 .none) }) [] := by decide

/-- D1 and H9. -/
theorem test_decode_evex256_vec :
    decode [0x62, 0xF2, 0xED, 0x28, 0x16, 0xCB] = .instr (.vpermpdEvex256Vec evexReg3) [] ∧
    decode [0x62, 0xF2, 0xED, 0x28, 0x16, 0x4C, 0xC8, 0x01] =
      .instr (.vpermpdEvex256Vec { evexReg3 with src := .mem (.sib 3 1 0 (.disp8 1)) }) [] := by decide

/-- E10 and H10. -/
theorem test_decode_evex512_vec :
    decode [0x62, 0x32, 0x8D, 0x47, 0x16, 0xCB] =
      .instr (.vpermpdEvex512Vec { dest := 9, idx := 30, src := .reg 19, ctl := ⟨7, false, false, 0, true⟩ }) [] ∧
    decode [0x62, 0xF2, 0xED, 0x48, 0x16, 0x0C, 0x25, 0x00, 0x10, 0x00, 0x00] =
      .instr (.vpermpdEvex512Vec { evexReg3 with src := .mem (.sibNoBase 0 4 0x1000) }) [] := by decide

/-- F1, F3, F4, F7 and the vector form of F7. -/
theorem test_decode_illegal_lengths :
    decode [0xC4, 0xE3, 0xF9, 0x01, 0xCA, 0x1B] = .instr (.illegalVex128Imm8 vexReg2) [] ∧
    decode [0x62, 0xF3, 0xFD, 0x08, 0x01, 0xCA, 0x1B] = .instr (.illegalEvex128Imm8 evexReg2) [] ∧
    decode [0x62, 0xF2, 0xED, 0x08, 0x16, 0xCB] = .instr (.illegalEvex128Vec evexReg3) [] ∧
    decode [0x62, 0xF3, 0xFD, 0x68, 0x01, 0xCA, 0x1B] = .instr (.illegalEvexLl11Imm8 evexReg2) [] ∧
    decode [0x62, 0xF2, 0xED, 0x68, 0x16, 0xCB] = .instr (.illegalEvexLl11Vec evexReg3) [] := by decide

/-- H1: RIP-relative, and the lengths of H1 and H10. -/
theorem test_decode_ripRel :
    decode [0xC4, 0xE3, 0xFD, 0x01, 0x0D, 0x00, 0x01, 0x00, 0x00, 0x1B] =
      .instr (.vpermpdVex256Imm8 { vexReg2 with src := .mem (.ripRel 0x100) }) [] ∧
    (Instr.vpermpdVex256Imm8 { vexReg2 with src := .mem (.ripRel 0x100) }).length = 10 ∧
    (Instr.vpermpdEvex512Vec { evexReg3 with src := .mem (.sibNoBase 0 4 0x1000) }).length = 11 := by decide

/-- F11, F12 and F15, and the refused prefixes after section 2.6. -/
theorem test_decode_legacy :
    decode [0xF0, 0xC4, 0xE3, 0xFD, 0x01, 0xCA, 0x1B] = .ud 7 ∧
    decode [0x66, 0x62, 0xF2, 0xED, 0x48, 0x16, 0xCB] = .ud 7 ∧
    decode [0x48, 0xC4, 0xE3, 0xFD, 0x01, 0xCA, 0x1B] = .ud 7 ∧
    decode [0x2E, 0xC4, 0xE3, 0xFD, 0x01, 0xCA, 0x1B] = .rejected .addressOverride ∧
    decode [0x67, 0xC4, 0xE3, 0xFD, 0x01, 0xCA, 0x1B] = .rejected .addressOverride := by decide

/-- The byte strings that R62 names. -/
theorem test_decode_neighbours :
    decode [0xC4, 0xE2, 0xED, 0x16, 0xCB] = .rejected .notVpermpd ∧
    decode [0xC4, 0xE3, 0x7D, 0x01, 0xCA, 0x1B] = .rejected .notVpermpd ∧
    decode [0x62, 0xF3, 0x7D, 0x28, 0x01, 0xCA, 0x1B] = .rejected .notVpermpd ∧
    decode [0x62, 0xF2, 0x6D, 0x48, 0x16, 0xCB] = .rejected .notVpermpd := by decide

/-- Encoding gives the spec's bytes back: H2, C9 and E10. -/
theorem test_encode_words :
    encode (.vpermpdVex256Imm8 { dest := 9, src := .mem (.sib 2 12 13 (.disp8 0x40)), imm := 0x1B, vvvv := 15 }) =
      [0xC4, 0x03, 0xFD, 0x01, 0x4C, 0xA5, 0x40, 0x1B] ∧
    encode (.vpermpdEvex512Imm8 { evexReg2 with dest := 25, src := .reg 18, ctl := ⟨3, true, false, 0, true⟩ }) =
      [0x62, 0x23, 0xFD, 0xCB, 0x01, 0xCA, 0x1B] ∧
    encode (.vpermpdEvex512Vec { dest := 9, idx := 30, src := .reg 19, ctl := ⟨7, false, false, 0, true⟩ }) =
      [0x62, 0x32, 0x8D, 0x47, 0x16, 0xCB] := by decide

/-- The host's numbering: A1 and E1 as words. -/
theorem test_decodeTableWord :
    decodeTableWord 48 0x1BCA01FDE3C4 = some (.vpermpdVex256Imm8 vexReg2) ∧
    decodeTableWord 48 0xCB1648EDF262 = some (.vpermpdEvex512Vec evexReg3) := by decide

/-! ### Single steps of the spec's vectors -/

/-- A9: a memory source. -/
theorem test_A9_vex256_imm8_memory :
    after (start 0 [0xC4, 0xE3, 0xFD, 0x01, 0x08, 0x1B]) 1 = some [m 3, m 2, m 1, m 0, 0, 0, 0, 0] := by
  decide +kernel

/-- A11: the source is the destination (R67). -/
theorem test_A11_vex256_imm8_in_place :
    after (start 0 [0xC4, 0xE3, 0xFD, 0x01, 0xC9, 0x1B]) 1 = some [d 3, d 2, d 1, d 0, 0, 0, 0, 0] := by
  decide +kernel

/-- B2: merging-masking. -/
theorem test_B2_evex256_imm8_merging :
    after (start 5 [0x62, 0xF3, 0xFD, 0x29, 0x01, 0xCA, 0x1B]) 1 = some [a 3, d 1, a 1, d 3, 0, 0, 0, 0] := by
  decide +kernel

/-- B8: broadcast under zeroing-masking. -/
theorem test_B8_evex256_imm8_broadcast_zeroing :
    after (start 6 [0x62, 0xF3, 0xFD, 0xB9, 0x01, 0x08, 0x93]) 1 = some [0, m 0, m 0, 0, 0, 0, 0, 0] := by
  decide +kernel

/-- C3: the immediate serves both halves. -/
theorem test_C3_evex512_imm8_merging :
    after (start 0xA5 [0x62, 0xF3, 0xFD, 0x49, 0x01, 0xCA, 0x4E]) 1 =
      some [a 2, d 1, a 0, d 3, d 4, a 7, d 6, a 5] := by
  decide +kernel

/-- C6: 64 bytes of memory. -/
theorem test_C6_evex512_imm8_memory :
    after (start 0 [0x62, 0xF3, 0xFD, 0x48, 0x01, 0x08, 0x1B]) 1 =
      some [m 3, m 2, m 1, m 0, m 7, m 6, m 5, m 4] := by
  decide +kernel

/-- D3: two index bits, merging. -/
theorem test_D3_evex256_vec_merging :
    after (startV 2 idxI 9 [0x62, 0xF2, 0xED, 0x29, 0x16, 0xCB]) 1 = some [b 3, d 1, d 2, b 3, 0, 0, 0, 0] := by
  decide +kernel

/-- P3, first instruction: the destination is the index register, `disp8` scaled by 32. -/
theorem test_P3_evex256_vec_compressed_displacement :
    after (startV 2 (ofElems fun j => [1, 1, 2, 0][j]?.getD 99) 0 [0x62, 0xF2, 0xED, 0x28, 0x16, 0x50, 0x01]) 2 =
      some [m 5, m 5, m 6, m 4, 0, 0, 0, 0] := by
  decide +kernel

/-- E3: three index bits, merging. -/
theorem test_E3_evex512_vec_merging :
    after (startV 2 idxI 0x3C [0x62, 0xF2, 0xED, 0x49, 0x16, 0xCB]) 1 =
      some [d 0, d 1, b 0, b 3, b 3, b 3, d 6, d 7] := by
  decide +kernel

/-- E9: index and data are one register. -/
theorem test_E9_evex512_vec_index_is_data :
    after (startV 2 idxI 0 [0x62, 0xF2, 0xED, 0x48, 0x16, 0xCA]) 1 =
      some [0x0D, 0, 7, 0x0B, 0x0B, 0x0B, 7, 3] := by
  decide +kernel

/-- F1, F3, F4, F7 and the vector form of F7: `#UD`, the state unchanged. -/
theorem test_F1_illegal_vex128_imm8 :
    let s := start 0 [0xC4, 0xE3, 0xF9, 0x01, 0xCA, 0x1B]
    faultOf (step s) = some (.ud s) := by decide +kernel

theorem test_F3_illegal_evex128_imm8 :
    let s := start 0 [0x62, 0xF3, 0xFD, 0x08, 0x01, 0xCA, 0x1B]
    faultOf (step s) = some (.ud s) := by decide +kernel

theorem test_F4_illegal_evex128_vec :
    let s := start 0 [0x62, 0xF2, 0xED, 0x08, 0x16, 0xCB]
    faultOf (step s) = some (.ud s) := by decide +kernel

theorem test_F7_illegal_evexLl11_imm8 :
    let s := start 0 [0x62, 0xF3, 0xFD, 0x68, 0x01, 0xCA, 0x1B]
    faultOf (step s) = some (.ud s) := by decide +kernel

theorem test_F7_illegal_evexLl11_vec :
    let s := start 0 [0x62, 0xF2, 0xED, 0x68, 0x16, 0xCB]
    faultOf (step s) = some (.ud s) := by decide +kernel

/-- G1: the 64th byte on an unmapped page, an all-zero mask. -/
theorem test_G1_fault_not_suppressed :
    let s := startFault 0x103F 0 [0x62, 0xF3, 0xFD, 0x49, 0x01, 0x08, 0x1B]
    faultOf (step s) = some (.mem (.pageFault 4 0x103F) s) := by decide +kernel

/-- G4 and G5: a broadcast reads 8 bytes. -/
theorem test_G4_broadcast_faults_on_its_eighth_byte :
    let s := startFault 0x1007 0 [0x62, 0xF3, 0xFD, 0x58, 0x01, 0x08, 0x1B]
    faultOf (step s) = some (.mem (.pageFault 4 0x1007) s) := by decide +kernel

theorem test_G5_broadcast_reads_eight_bytes :
    after (startFault 0x1008 0 [0x62, 0xF3, 0xFD, 0x58, 0x01, 0x08, 0x1B]) 1 =
      some [m 0, m 0, m 0, m 0, m 0, m 0, m 0, m 0] := by decide +kernel

/-- H5 and H7: a negative `disp8`, scaled by 64 and, with broadcast, by 8. -/
theorem test_H5_H7_effective_address :
    let s := { State.reset with g := (State.reset.g.set 0 0x2000).set 5 0x3000 }
    effAddr s 8 (disp8Scale .vl512 false) (.base 0 (.disp8 0xFF)) = 0x1FC0 ∧
    effAddr s 8 (disp8Scale .vl512 true) (.base 5 (.disp8 0xFF)) = 0x2FF8 := by decide +kernel

/-- R96: a run of one instruction ends when `pc` reaches the program's end. -/
theorem test_run_ends_at_the_end_of_the_program :
    (match ({ start := 0, encodings := [bytesVexReg] } : Program).run (start 0 bytesVexReg) with
      | .successful t => some (elems t 1, t.pc)
      | .faulted _ => none
      | .stuck _ => none
      | .unfinished _ => none) = some ([a 3, a 2, a 1, a 0, 0, 0, 0, 0], 6) := by decide +kernel

/-- A placed word runs as the first instruction after reset. -/
theorem test_withFetchWord_runs_after_reset :
    (stateOf (step (State.reset.withFetchWord 48 0x1BCA01FDE3C4))).map (fun t => t.pc) = some 6 := by decide +kernel

/-! ### Witnesses: a state and operands that meet a statement's hypotheses, all of them together -/

theorem readable_mem {s : State} {len scale bytes : Nat} {x : MemOperand}
    (h : Sys2Proof.Machine.memFault s (effAddr s len scale x) bytes = none ∧
      touchesDevice s (effAddr s len scale x) bytes = false) : SourceReadable s len scale bytes (.mem x) := h

/-- A state with the largest registers satisfies `Inv` when its memory is canonical. -/
theorem inv_of_wf {s : State} (hf : s.cfg.hasAvx512f = true) (hk : s.cfg.opmaskWidth = .kw64)
    (hm : s.mem.wf = true) : Inv s where
  memory := hm
  vectorWidth n b hb := BitVec.getLsbD_of_ge _ _ (by simpa [maxVl, hf] using hb)
  vectorCount n hn := by
    have := n.isLt
    simp only [nvreg, hf, if_true] at hn
    omega
  opmaskWidth n b hb := BitVec.getLsbD_of_ge _ _ (by simpa [kw, hk] using hb)

/-- A1, A9, D1 with a memory operand, and a merging form, as bytes and as instructions. -/
def bytesVexMem : List Byte := [0xC4, 0xE3, 0xFD, 0x01, 0x08, 0x1B]
def vexMem : VexImm8 := { vexReg2 with src := .mem (.base 0 .none) }
def evexMem : EvexImm8 := { evexReg2 with src := .mem (.base 0 (.disp8 0)) }
def evexMemMask : EvexImm8 := { evexMem with ctl := ⟨1, false, false, 0, true⟩ }
def vecMem : EvexVec := { evexReg3 with src := .mem (.sib 3 1 0 .none), ctl := ⟨1, false, true, 0, true⟩ }
def vecMemZ : EvexVec := { vecMem with ctl := ⟨1, true, true, 0, true⟩ }

theorem witness_DecodeOfEncode :
    (Instr.vpermpdVex256Imm8 { vexReg2 with src := .mem (.base 13 (.disp8 0x80)) }).encodable = true ∧
    (Instr.vpermpdEvex256Imm8 { evexReg2 with src := .mem (.sib 3 15 13 (.disp32 0x80000000)) }).encodable = true ∧
    (Instr.vpermpdEvex512Vec { evexReg3 with dest := 31, idx := 31, src := .reg 31 }).encodable = true ∧
    (Instr.illegalEvexLl11Vec { evexReg3 with src := .mem (.sibNoBase 0 4 0) }).encodable = true := by decide

theorem witness_DecoderFollowsOpcodeTable :
    let bs : List Byte := [0x62, 0xF3, 0xFD, 0x28, 0x01, 0x84, 0xC8, 0x00, 0x00, 0x00, 0x00, 0x1B]
    12 ≤ bs.length ∧ (Instr.vpermpdEvex256Imm8 evexReg2).row.accepts bs = true ∧
    decode bs = .instr (.vpermpdEvex256Imm8 { evexReg2 with dest := 0, src := .mem (.sib 3 1 0 (.disp32 0)) }) [] := by decide

theorem witness_OpcodeRowsDoNotOverlap :
    (Instr.vpermpdVex256Imm8 vexReg2).row.accepts bytesVexReg = true ∧
    (Instr.vpermpdVex256Imm8 vexMem).row.accepts bytesVexReg = true := by decide

theorem witness_PrefixesRaiseUdOrAreRefused_ud :
    let s := start 0 ([0xF0, 0x66, 0xF2, 0xF3, 0x40, 0x4F] ++ bytesVexReg)
    let ps : List Byte := [0xF0, 0x66, 0xF2, 0xF3, 0x40, 0x4F]
    let i : Instr := .vpermpdVex256Imm8 vexReg2
    s.cfg.mode64 = true ∧ i.encodable = true ∧ ps ≠ [] ∧ fetchBytes s = ps ++ encode i ++ [0, 0, 0] ∧
    (∀ p ∈ ps, p = 0xF0#8 ∨ p = 0x66#8 ∨ p = 0xF2#8 ∨ p = 0xF3#8 ∨ (0x40 ≤ p.toNat ∧ p.toNat ≤ 0x4F)) ∧
    fetchable s (ps.length + i.length) = true := by decide +kernel

theorem witness_PrefixesRaiseUdOrAreRefused_refused :
    let s := start 0 ([0x67, 0x2E] ++ bytesVexReg)
    let ps : List Byte := [0x67, 0x2E]
    let i : Instr := .vpermpdVex256Imm8 vexReg2
    s.cfg.mode64 = true ∧ i.encodable = true ∧ ps ≠ [] ∧
    fetchBytes s = ps ++ encode i ++ [0, 0, 0, 0, 0, 0, 0] ∧
    (∀ p ∈ ps, p ∈ [0x2E#8, 0x36#8, 0x3E#8, 0x26#8, 0x64#8, 0x65#8, 0x67#8]) := by decide +kernel

theorem witness_MixedPrefixesAreRefused :
    let s := start 0 ([0x67, 0x40] ++ bytesVexReg)
    let ps : List Byte := [0x67, 0x40]
    let i : Instr := .vpermpdVex256Imm8 vexReg2
    s.cfg.mode64 = true ∧ i.encodable = true ∧ fetchBytes s = ps ++ encode i ++ [0, 0, 0, 0, 0, 0, 0] ∧
    (∀ p ∈ ps, p = 0xF0#8 ∨ p = 0x66#8 ∨ p = 0xF2#8 ∨ p = 0xF3#8 ∨ (0x40 ≤ p.toNat ∧ p.toNat ≤ 0x4F) ∨
      p ∈ [0x2E#8, 0x36#8, 0x3E#8, 0x26#8, 0x64#8, 0x65#8, 0x67#8]) ∧
    (∃ p ∈ ps, p ∈ [0x2E#8, 0x36#8, 0x3E#8, 0x26#8, 0x64#8, 0x65#8, 0x67#8]) := by decide +kernel

theorem witness_NeighbouringEncodingsAreRefused_vex :
    let s := start 0 [0xC4, 0xE3, 0x7D, 0x01, 0xCA, 0x1B]
    s.cfg.mode64 = true ∧
    fetchBytes s = 0xC4#8 :: 0xE3#8 :: 0x7D#8 :: 0x01#8 :: [0xCA, 0x1B, 0, 0, 0, 0, 0, 0, 0, 0, 0] ∧
    (0x7D#8).getLsbD 7 = false := by decide +kernel

theorem witness_NeighbouringEncodingsAreRefused_evex :
    let s := start 0 [0x62, 0xF2, 0xED, 0x48, 0x01, 0xCB]
    s.cfg.mode64 = true ∧
    fetchBytes s = 0x62#8 :: 0xF2#8 :: 0xED#8 :: 0x48#8 :: 0x01#8 :: [0xCB, 0, 0, 0, 0, 0, 0, 0, 0, 0] ∧
    ¬((0xF2#8).extractLsb' 0 2 = 0b11#2 ∧ 0x01#8 = 0x01#8 ∨
      (0xF2#8).extractLsb' 0 2 = 0b10#2 ∧ 0x01#8 = 0x16#8) := by decide +kernel

theorem witness_NeighbouringEncodingsAreRefused_first_byte :
    let s := start 0 [0xC5, 0xFD, 0x01, 0xCA]
    s.cfg.mode64 = true ∧ fetchBytes s = 0xC5#8 :: [0xFD, 0x01, 0xCA, 0, 0, 0, 0, 0, 0, 0, 0, 0, 0, 0] ∧
    0xC5#8 ≠ 0xC4#8 ∧ 0xC5#8 ≠ 0x62#8 ∧
    ¬(0xC5#8 = 0xF0#8 ∨ 0xC5#8 = 0x66#8 ∨ 0xC5#8 = 0xF2#8 ∨ 0xC5#8 = 0xF3#8 ∨
      (0x40 ≤ (0xC5#8).toNat ∧ (0xC5#8).toNat ≤ 0x4F)) ∧
    0xC5#8 ∉ [0x2E#8, 0x36#8, 0x3E#8, 0x26#8, 0x64#8, 0x65#8, 0x67#8] := by decide +kernel

theorem witness_VexLZeroRaisesUd :
    let s := start 0 [0xC4, 0xE3, 0xF9, 0x01, 0xCA, 0x1B]
    s.cfg.mode64 = true ∧ fetchable s 15 = true ∧
    fetchBytes s = 0xC4#8 :: 0xE3#8 :: 0xF9#8 :: 0x01#8 :: [0xCA, 0x1B, 0, 0, 0, 0, 0, 0, 0, 0, 0] ∧
    (0xE3#8).extractLsb' 0 5 = 0b00011#5 ∧ (0xF9#8).extractLsb' 0 2 = 0b01#2 ∧ (0xF9#8).getLsbD 7 = true ∧
    (0xF9#8).getLsbD 2 = false := by decide +kernel

theorem witness_VexVvvvReservedRaisesUd :
    let s := start 0 [0xC4, 0xE3, 0xF5, 0x01, 0xCA, 0x1B]
    s.cfg.mode64 = true ∧ fetchable s 15 = true ∧
    fetchBytes s = 0xC4#8 :: 0xE3#8 :: 0xF5#8 :: 0x01#8 :: [0xCA, 0x1B, 0, 0, 0, 0, 0, 0, 0, 0, 0] ∧
    (0xE3#8).extractLsb' 0 5 = 0b00011#5 ∧ (0xF5#8).extractLsb' 0 2 = 0b01#2 ∧ (0xF5#8).getLsbD 7 = true ∧
    (0xF5#8).extractLsb' 3 4 ≠ 0b1111#4 := by decide +kernel

theorem witness_Evex128RaisesUd :
    let s := start 0 [0x62, 0xF2, 0xED, 0x08, 0x16, 0xCB]
    s.cfg.mode64 = true ∧ fetchable s 15 = true ∧
    fetchBytes s = 0x62#8 :: 0xF2#8 :: 0xED#8 :: 0x08#8 :: 0x16#8 :: [0xCB, 0, 0, 0, 0, 0, 0, 0, 0, 0] ∧
    (0xED#8).extractLsb' 0 2 = 0b01#2 ∧ (0xED#8).getLsbD 7 = true ∧
    ((0xF2#8).extractLsb' 0 2 = 0b11#2 ∧ 0x16#8 = 0x01#8 ∨ (0xF2#8).extractLsb' 0 2 = 0b10#2 ∧ 0x16#8 = 0x16#8) ∧
    (0x08#8).extractLsb' 5 2 = 0b00#2 := by decide +kernel

theorem witness_EvexVvvvReservedWithImm8RaisesUd_imm8 :
    let s := start 0 [0x62, 0xF3, 0xF5, 0x28, 0x01, 0xCA, 0x1B]
    s.cfg.mode64 = true ∧ fetchable s 15 = true ∧
    fetchBytes s = 0x62#8 :: 0xF3#8 :: 0xF5#8 :: 0x28#8 :: 0x01#8 :: [0xCA, 0x1B, 0, 0, 0, 0, 0, 0, 0, 0] ∧
    (0xF5#8).extractLsb' 0 2 = 0b01#2 ∧ (0xF5#8).getLsbD 7 = true ∧ (0xF3#8).extractLsb' 0 2 = 0b11#2 ∧
    (0xF5#8).extractLsb' 3 4 ≠ 0b1111#4 := by decide +kernel

theorem witness_EvexVvvvReservedWithImm8RaisesUd_vec :
    let s := startCfg (fun c => { c with osAvx512 := false }) []
    exec (.vpermpdEvex256Vec evexReg3) s = .fault (.ud s) ∧ exec (.vpermpdEvex512Vec evexReg3) s = .fault (.ud s) :=
  ⟨fault_of_faultOf (by decide +kernel), fault_of_faultOf (by decide +kernel)⟩

theorem witness_ReservedEvexFieldsRaiseUd :
    (start 0 []).cfg.mode64 = true ∧
    ({ evexReg2 with vPrime := false }).vPrime = false ∧
    (({ plainCtl with z := true }).z = true ∧ ({ plainCtl with z := true }).aaa = 0#3) ∧
    (({ plainCtl with b := true }).b = true ∧ evexReg2.src = .reg 2 ∧ evexReg3.src = .reg 3) ∧
    ({ plainCtl with p1Fixed := false }).p1Fixed = false ∧
    ({ plainCtl with p0Reserved := 1 }).p0Reserved ≠ 0#2 ∧ ({ plainCtl with p0Reserved := 2 }).p0Reserved ≠ 0#2 := by
  decide +kernel

theorem witness_MissingFeatureRaisesUd_ud :
    (Instr.vpermpdVex256Imm8 vexReg2).valid = true ∧ (Instr.vpermpdEvex256Imm8 evexReg2).valid = true ∧
    (Instr.vpermpdEvex512Imm8 evexReg2).valid = true ∧ (Instr.vpermpdEvex256Vec evexReg3).valid = true ∧
    (Instr.vpermpdEvex512Vec evexReg3).valid = true ∧
    (let s := startCfg (fun c => { c with hasAvx2 := false, hasAvx512f := false }) []
     s.cfg.mode64 = true ∧ s.cfg.hasAvx2 = false ∧ s.cfg.hasAvx512f = false) ∧
    (let s := startCfg (fun c => { c with hasAvx512vl := false }) []
     s.cfg.mode64 = true ∧ s.cfg.hasAvx512vl = false) := by decide +kernel

theorem witness_MissingFeatureRaisesUd_nm :
    let s := startCfg (fun c => { c with taskSwitched := true }) []
    s.cfg.mode64 = true ∧ (Instr.vpermpdEvex256Vec evexReg3).valid = true ∧
    Usable s.cfg (.vpermpdEvex256Vec evexReg3) ∧ s.cfg.taskSwitched = true :=
  And.intro (by decide +kernel) (And.intro (by decide) (And.intro (And.intro (by decide +kernel)
    (And.intro (by decide +kernel) (by decide +kernel))) (by decide +kernel)))

theorem witness_ChecksAreMadeInOrder_prefixed :
    let s := startCfg (fun c => { c with hasAvx2 := false, taskSwitched := true }) (0xF0 :: bytesVexMem)
    s.cfg.mode64 = true ∧ decode (fetchBytes s) = .ud 7 ∧ fetchable s 7 = true := by decide +kernel

theorem witness_ChecksAreMadeInOrder_enables :
    (Instr.vpermpdVex256Imm8 { vexReg2 with vvvv := 0 }).valid = false ∧
    (let s := startCfg (fun c => { c with osAvx := false, taskSwitched := true }) []
     s.cfg.mode64 = true ∧ (Instr.vpermpdVex256Imm8 vexMem).valid = true ∧
      ¬Usable s.cfg (.vpermpdVex256Imm8 vexMem)) :=
  And.intro (by decide) (And.intro (by decide +kernel) (And.intro (by decide)
    fun h => absurd h.2 (by decide +kernel)))

theorem witness_ChecksAreMadeInOrder_fault :
    let s := startFault 0x101F 0 []
    let i : Instr := .vpermpdVex256Imm8 vexMem
    s.cfg.mode64 = true ∧ i.valid = true ∧ Usable s.cfg i ∧ s.cfg.taskSwitched = false ∧
    ∃ w x, viewOf i = some w ∧ w.src = .mem x ∧
      Sys2Proof.Machine.memFault s (effAddr s i.length w.scale x) w.bytes = some (.pageFault 4 0x101F) :=
  And.intro (by decide +kernel) (And.intro (by decide) (And.intro (And.intro (by decide +kernel) (by decide +kernel))
    (And.intro (by decide +kernel) ⟨_, .base 0 .none, rfl, rfl, by decide +kernel⟩)))

theorem witness_ChecksAreMadeInOrder_readable :
    let s := startFault 0x1020 0 []
    let i : Instr := .vpermpdVex256Imm8 vexMem
    s.cfg.mode64 = true ∧ i.valid = true ∧ Usable s.cfg i ∧ s.cfg.taskSwitched = false ∧
    ∃ w, viewOf i = some w ∧ SourceReadable s i.length w.scale w.bytes w.src :=
  And.intro (by decide +kernel) (And.intro (by decide) (And.intro (And.intro (by decide +kernel) (by decide +kernel))
    (And.intro (by decide +kernel) ⟨_, rfl, readable_mem (by decide +kernel)⟩)))

/-- G1: the last byte of the operand, with all-zero masks. -/
theorem witness_MemoryFaultIsNotSuppressedByTheMask :
    let s := startFault 0x103F 0 []
    let i : Instr := .vpermpdEvex512Imm8 evexMemMask
    s.cfg.mode64 = true ∧ i.valid = true ∧ Usable s.cfg i ∧ s.cfg.taskSwitched = false ∧
    ∃ w x, viewOf i = some w ∧ w.src = .mem x ∧
      Sys2Proof.Machine.memFault s (effAddr s i.length w.scale x) w.bytes = some (.pageFault 4 0x103F) :=
  And.intro (by decide +kernel) (And.intro (by decide) (And.intro (And.intro (by decide +kernel) (by decide +kernel))
    (And.intro (by decide +kernel) ⟨_, .base 0 (.disp8 0), rfl, rfl, by decide +kernel⟩)))

theorem witness_FaultsArePrecise :
    (∃ x, step (start 0 [0xC4, 0xE3, 0xF9, 0x01, 0xCA, 0x1B]) = .fault x) ∧
    (∃ x, step (startCfg (fun c => { c with taskSwitched := true }) bytesVexReg) = .fault x) ∧
    (∃ x, step (startFault 0x1000 0 bytesVexMem) = .fault x) :=
  ⟨fault_of_isSome (by decide +kernel), fault_of_isSome (by decide +kernel), fault_of_isSome (by decide +kernel)⟩

theorem witness_UdIsVectorSixAndRecordsNothing :
    let s := start 0 [0xC4, 0xE3, 0xF9, 0x01, 0xCA, 0x1B]
    step s = .fault (.ud s) := fault_of_faultOf (by decide +kernel)

theorem witness_NoFloatingPointExceptionIsRaised :
    (∃ x, step (startFault 0x1000 0 bytesVexMem) = .fault x) ∧ (∃ t, step (start 0 bytesVexMem) = .next t) :=
  ⟨fault_of_isSome (by decide +kernel), next_of_stateOf (by decide +kernel)⟩

theorem witness_OnlyMode64IsAdmitted :
    (startCfg (fun c => { c with mode64 := false }) bytesVexReg).cfg.mode64 = false ∧
    (viewOf (.vpermpdVex256Imm8 vexReg2)).isSome = true := by decide +kernel

theorem witness_DeviceOperandIsRefused :
    let s := startCfg (fun c => { c with devices := [⟨0x101F, 0x101F⟩] }) []
    let i : Instr := .vpermpdVex256Imm8 vexMem
    s.cfg.mode64 = true ∧ i.valid = true ∧ Usable s.cfg i ∧ s.cfg.taskSwitched = false ∧
    ∃ w x, viewOf i = some w ∧ w.src = .mem x ∧
      Sys2Proof.Machine.memFault s (effAddr s i.length w.scale x) w.bytes = none ∧
      touchesDevice s (effAddr s i.length w.scale x) w.bytes = true :=
  And.intro (by decide +kernel) (And.intro (by decide) (And.intro (And.intro (by decide +kernel) (by decide +kernel))
    (And.intro (by decide +kernel) ⟨_, .base 0 .none, rfl, rfl, by decide +kernel, by decide +kernel⟩)))

/-- A step that answers a next state: the hypothesis of StepWritesDestinationAndPcOnly, NoStepWritesMemory and
StatusIsNeitherReadNorWritten. -/
theorem witness_StepWritesDestinationAndPcOnly : ∃ t, step (start 0 bytesVexMem) = .next t :=
  next_of_stateOf (by decide +kernel)

theorem witness_NoStepWritesMemory :
    ∃ t, step (start 5 [0x62, 0xF3, 0xFD, 0x29, 0x01, 0x08, 0x1B]) = .next t := next_of_stateOf (by decide +kernel)

theorem witness_StatusIsNeitherReadNorWritten : ∃ t, step (start 0 bytesVexReg) = .next t :=
  next_of_stateOf (by decide +kernel)

/-- The other opmask file differs from bit 4 of `K[1]` on, and in every other register. -/
theorem witness_OpmaskBitsAboveKlHaveNoEffect :
    let s := start 5 []
    let masks : Vector (BitVec 64) 8 := Vector.replicate 8 0xFFFFFFFFFFFFFFF5
    (∃ w, viewOf (.vpermpdEvex256Imm8 evexMemMask) = some w ∧
      ∀ j, j < kl w.vl → (readK (withMasks masks s) w.aaa).getLsbD j = (readK s w.aaa).getLsbD j) ∧
    ∃ t, exec (.vpermpdEvex256Imm8 evexMemMask) s = .next t :=
  ⟨⟨_, rfl, by decide +kernel⟩, next_of_stateOf (by decide +kernel)⟩

theorem witness_NoWritemaskWritesEveryElement :
    (∃ w t, viewOf (.vpermpdVex256Imm8 vexMem) = some w ∧ w.aaa = 0#3 ∧
      exec (.vpermpdVex256Imm8 vexMem) (start 0 []) = .next t) ∧
    (∃ w t, viewOf (.vpermpdEvex512Vec evexReg3) = some w ∧ w.aaa = 0#3 ∧
      exec (.vpermpdEvex512Vec evexReg3) (start 0 []) = .next t) :=
  ⟨⟨_, (next_of_stateOf (by decide +kernel)).choose, rfl, rfl, (next_of_stateOf (by decide +kernel)).choose_spec⟩,
    ⟨_, (next_of_stateOf (by decide +kernel)).choose, rfl, rfl, (next_of_stateOf (by decide +kernel)).choose_spec⟩⟩

theorem witness_PcAdvancesByLen :
    (∃ t, exec (.vpermpdEvex256Imm8 evexMem) (start 0 []) = .next t) ∧
    (∃ x, exec (.vpermpdEvex256Imm8 evexMem) (startFault 0x1000 0 []) = .fault x) :=
  ⟨next_of_stateOf (by decide +kernel), fault_of_isSome (by decide +kernel)⟩

theorem witness_DestinationIsZeroAboveVl :
    ∃ w t, viewOf (.vpermpdEvex256Imm8 evexMemMask) = some w ∧
      exec (.vpermpdEvex256Imm8 evexMemMask) (start 0 []) = .next t ∧ vlBits w.vl ≤ 256 :=
  ⟨_, (next_of_stateOf (by decide +kernel)).choose, rfl, (next_of_stateOf (by decide +kernel)).choose_spec, by decide⟩

/-- `K[1] = 5`: bit 2 is 1, bits 1 and 7 are 0, merging and zeroing; and a form without a mask. -/
theorem witness_ElementsAreMovedUnchanged :
    (∃ w t, viewOf (.vpermpdEvex512Vec vecMem) = some w ∧ exec (.vpermpdEvex512Vec vecMem) (start 5 []) = .next t ∧
      7 < kl w.vl ∧ w.aaa ≠ 0#3 ∧ (readK (start 5 []) w.aaa).getLsbD 2 = true ∧
      (readK (start 5 []) w.aaa).getLsbD 7 = false ∧ w.z = false) ∧
    (∃ w t, viewOf (.vpermpdEvex256Vec vecMemZ) = some w ∧ exec (.vpermpdEvex256Vec vecMemZ) (start 5 []) = .next t ∧
      3 < kl w.vl ∧ w.aaa ≠ 0#3 ∧ (readK (start 5 []) w.aaa).getLsbD 1 = false ∧ w.z = true) ∧
    (∃ w t, viewOf (.vpermpdVex256Imm8 vexMem) = some w ∧ exec (.vpermpdVex256Imm8 vexMem) (start 5 []) = .next t ∧
      3 < kl w.vl ∧ w.aaa = 0#3) :=
  ⟨⟨_, (next_of_stateOf (by decide +kernel)).choose, rfl, (next_of_stateOf (by decide +kernel)).choose_spec,
      by decide, by decide, by decide +kernel, by decide +kernel, rfl⟩,
    ⟨_, (next_of_stateOf (by decide +kernel)).choose, rfl, (next_of_stateOf (by decide +kernel)).choose_spec,
      by decide, by decide, by decide +kernel, rfl⟩,
    ⟨_, (next_of_stateOf (by decide +kernel)).choose, rfl, (next_of_stateOf (by decide +kernel)).choose_spec,
      by decide, rfl⟩⟩

/-- The source, and the index, is the destination `V[1]`; `V[2]` holds a copy of it. -/
theorem witness_ReadsPrecedeTheWrite :
    let s := startV 2 (ofElems d) 0 []
    let f : VexImm8 := { vexReg2 with src := .reg 1 }
    let g : EvexImm8 := { evexReg2 with src := .reg 1 }
    let h : EvexVec := { evexReg3 with src := .reg 1, idx := 1 }
    ((2 : BitVec 4) ≠ f.dest ∧ readV s ((2 : BitVec 4).setWidth 5) = readV s ((1 : BitVec 4).setWidth 5) ∧
      ∃ t, exec (.vpermpdVex256Imm8 f) s = .next t) ∧
    ((2 : BitVec 5) ≠ g.dest ∧ readV s 2 = readV s 1 ∧ (∃ t, exec (.vpermpdEvex256Imm8 g) s = .next t) ∧
      ∃ t, exec (.vpermpdEvex512Imm8 g) s = .next t) ∧
    ((2 : BitVec 5) ≠ h.dest ∧ readV s 2 = readV s h.idx ∧ (∃ t, exec (.vpermpdEvex256Vec h) s = .next t) ∧
      ∃ t, exec (.vpermpdEvex512Vec h) s = .next t) :=
  ⟨⟨by decide, by decide +kernel, next_of_stateOf (by decide +kernel)⟩,
    ⟨by decide, by decide +kernel, next_of_stateOf (by decide +kernel), next_of_stateOf (by decide +kernel)⟩,
    ⟨by decide, by decide +kernel, next_of_stateOf (by decide +kernel), next_of_stateOf (by decide +kernel)⟩⟩

/-- A broadcast form with an index register and a merging mask; the other state has other flags, masks from bit 8 on,
an unused vector register and general register, and other bytes beside the operand's eight. -/
theorem witness_ResultDependsOnTheReadSetOnly :
    let i : Instr := .vpermpdEvex512Vec vecMem
    let s := start 5 []
    let s' := withStatus 0 0 X87.reset
      { writeV s 7 (ofElems a) with
        k := s.k.set 1 0xFF05
        g := s.g.set 9 5
        mem := s.mem.write 0x1008 0x55 }
    ∃ w t, viewOf i = some w ∧ AgreeOnReads w s s' i.length ∧ exec i s = .next t ∧ s' ≠ s := by
  refine ⟨_, (next_of_stateOf (by decide +kernel)).choose, rfl, ?_,
    (next_of_stateOf (by decide +kernel)).choose_spec, by decide +kernel⟩
  constructor
  · rfl
  · rfl
  · intro n hn
    exact absurd hn (by simp [evexView, vecMem])
  · intro x hx
    cases hx
    decide +kernel
  · intro x hx
    cases hx
    decide +kernel
  · intro n hn
    cases hn
    decide +kernel
  · intro _
    decide +kernel
  · intro _ _
    decide +kernel

theorem witness_EffectiveAddressIsTheSumModulo2To64 :
    (0 : BitVec 4) ≠ 0b0100#4 ∧ (12 : BitVec 4) ≠ 0b0100#4 ∧ (15 : BitVec 4) ≠ 0b0100#4 := by decide

theorem witness_MemoryIsLittleEndian : (64 ≤ 64 ∧ 63 < 64) ∧ (64 ≤ 64 ∧ 8 * 7 + 8 ≤ 64) ∧ 14 < 15 := by decide

/-- The bits on both sides of `VL = 256`, with the mask bit at 1 and at 0, merging and zeroing. -/
theorem witness_ApplyMaskBitByBit :
    (255 < 512 ∧ 255 < vlBits .vl256 ∧ (true = false ∨ (8#64).getLsbD (255 / 64) = true)) ∧
    (255 < 512 ∧ 255 < vlBits .vl256 ∧ (7#64).getLsbD (255 / 64) = false) ∧
    (256 < 512 ∧ vlBits .vl256 ≤ 256) ∧ (511 < 512 ∧ 511 < vlBits .vl512) := by decide

theorem witness_PermVecIsTheSourcesLines : 3 < 4 ∧ 7 < 8 := by decide

theorem witness_IndexBitsAboveTheLowOnesAreIgnored :
    let idx' : Zmm := ofElems fun j => [7, 6, 0, 3, 3, 3, 0, 5][j]?.getD 0
    (∀ j, j < 4 → (qword idx' j).extractLsb' 0 2 = (qword idxI j).extractLsb' 0 2) ∧
    (∀ j, j < 8 → (qword idx' j).extractLsb' 0 3 = (qword idxI j).extractLsb' 0 3) := by decide +kernel

theorem witness_OneElementCanGoToEveryPosition :
    (3 < kl .vl256 ∧ ∀ j, j < kl .vl256 → qword (ofElems fun _ => 3) j = BitVec.ofNat 64 3) ∧
    (7 < kl .vl512 ∧ ∀ j, j < kl .vl512 → qword (ofElems fun _ => 7) j = BitVec.ofNat 64 7) := by decide +kernel

theorem witness_Vex256Imm8Completes :
    let s := start 0 []
    s.cfg.mode64 = true ∧ vexMem.vvvv = 0b1111#4 ∧ s.cfg.hasAvx2 = true ∧ s.cfg.osAvx = true ∧
    s.cfg.taskSwitched = false ∧ SourceReadable s vexMem.length 1 32 (vexMem.src.mapReg fun n => n.setWidth 5) :=
  ⟨by decide +kernel, by decide, by decide +kernel, by decide +kernel, by decide +kernel,
    readable_mem (x := .base 0 .none) (by decide +kernel)⟩

theorem witness_Evex256Imm8Completes :
    let s := start 5 []
    let f := evexMemMask
    s.cfg.mode64 = true ∧ f.valid = true ∧ s.cfg.hasAvx512f = true ∧ s.cfg.hasAvx512vl = true ∧
    s.cfg.osAvx512 = true ∧ s.cfg.taskSwitched = false ∧
    SourceReadable s f.length (if f.ctl.b then 8 else 32) (if f.ctl.b then 8 else 32) f.src :=
  ⟨by decide +kernel, by decide, by decide +kernel, by decide +kernel, by decide +kernel, by decide +kernel,
    readable_mem (x := .base 0 (.disp8 0)) (by decide +kernel)⟩

theorem witness_Evex512Imm8Completes :
    let s := start 0xA5 []
    let f := evexMemMask
    s.cfg.mode64 = true ∧ f.valid = true ∧ s.cfg.hasAvx512f = true ∧ s.cfg.osAvx512 = true ∧
    s.cfg.taskSwitched = false ∧
    SourceReadable s f.length (if f.ctl.b then 8 else 64) (if f.ctl.b then 8 else 64) f.src :=
  ⟨by decide +kernel, by decide, by decide +kernel, by decide +kernel, by decide +kernel,
    readable_mem (x := .base 0 (.disp8 0)) (by decide +kernel)⟩

theorem witness_Evex256VecCompletes :
    let s := start 5 []
    let f := vecMem
    s.cfg.mode64 = true ∧ f.valid = true ∧ s.cfg.hasAvx512f = true ∧ s.cfg.hasAvx512vl = true ∧
    s.cfg.osAvx512 = true ∧ s.cfg.taskSwitched = false ∧
    SourceReadable s f.length (if f.ctl.b then 8 else 32) (if f.ctl.b then 8 else 32) f.src :=
  ⟨by decide +kernel, by decide, by decide +kernel, by decide +kernel, by decide +kernel, by decide +kernel,
    readable_mem (x := .sib 3 1 0 .none) (by decide +kernel)⟩

theorem witness_Evex512VecCompletes :
    let s := start 5 []
    let f := vecMem
    s.cfg.mode64 = true ∧ f.valid = true ∧ s.cfg.hasAvx512f = true ∧ s.cfg.osAvx512 = true ∧
    s.cfg.taskSwitched = false ∧
    SourceReadable s f.length (if f.ctl.b then 8 else 64) (if f.ctl.b then 8 else 64) f.src :=
  ⟨by decide +kernel, by decide, by decide +kernel, by decide +kernel, by decide +kernel,
    readable_mem (x := .sib 3 1 0 .none) (by decide +kernel)⟩

/-- `K[1] = FF00h` is all zero below `KL`; the operand can be read, and in the second state cannot. -/
theorem witness_AllZeroMaskStillClearsTheUpperBits :
    let i : Instr := .vpermpdEvex256Imm8 evexMemMask
    let s := start 0xFF00 []
    let s' := startFault 0x1000 0xFF00 []
    (∃ w, s.cfg.mode64 = true ∧ i.valid = true ∧ Usable s.cfg i ∧ s.cfg.taskSwitched = false ∧ viewOf i = some w ∧
      w.aaa ≠ 0#3 ∧ (∀ j, j < kl w.vl → (readK s w.aaa).getLsbD j = false) ∧
      SourceReadable s i.length w.scale w.bytes w.src) ∧
    (∃ w x, s'.cfg.mode64 = true ∧ i.valid = true ∧ Usable s'.cfg i ∧ s'.cfg.taskSwitched = false ∧
      viewOf i = some w ∧ w.aaa ≠ 0#3 ∧ (∀ j, j < kl w.vl → (readK s' w.aaa).getLsbD j = false) ∧ w.src = .mem x ∧
      Sys2Proof.Machine.memFault s' (effAddr s' i.length w.scale x) w.bytes = some (.pageFault 4 0x1000)) :=
  ⟨⟨_, by decide +kernel, by decide,
      And.intro (by decide +kernel) (And.intro (by decide +kernel) (by decide +kernel)), by decide +kernel, rfl,
      by decide, by decide +kernel, readable_mem (by decide +kernel)⟩,
    ⟨_, .base 0 (.disp8 0), by decide +kernel, by decide,
      And.intro (by decide +kernel) (And.intro (by decide +kernel) (by decide +kernel)), by decide +kernel, rfl,
      by decide, by decide +kernel, rfl, by decide +kernel⟩⟩

theorem witness_VexFormIsTheUnmaskedEvex256Form :
    let s := start 0 []
    evexReg2 = { dest := (1 : BitVec 4).setWidth 5, src := .reg ((2 : BitVec 4).setWidth 5), imm := 0x1B,
                 ctl := { aaa := 0, z := false, b := false, p0Reserved := 0, p1Fixed := true }, vvvv := 15,
                 vPrime := true } ∧
    s.cfg.hasAvx2 = true ∧ s.cfg.osAvx = true ∧ ∃ t, exec (.vpermpdEvex256Imm8 evexReg2) s = .next t :=
  ⟨by decide, by decide +kernel, by decide +kernel, next_of_stateOf (by decide +kernel)⟩

theorem witness_StepRunsTheDecodedInstruction :
    let s := start 0 bytesVexReg
    s.cfg.mode64 = true ∧
    decode (fetchBytes s) = .instr (.vpermpdVex256Imm8 vexReg2) [0, 0, 0, 0, 0, 0, 0, 0, 0] ∧
    fetchable s (Instr.vpermpdVex256Imm8 vexReg2).length = true := by decide +kernel

theorem witness_EncodingAtPcRuns :
    let s := start 0 bytesVexReg
    let i : Instr := .vpermpdVex256Imm8 vexReg2
    s.cfg.mode64 = true ∧ i.encodable = true ∧
    (∀ k, ∀ h : k < (encode i).length, readByte s (s.pc + BitVec.ofNat 64 k) = (encode i)[k]'h) ∧
    (∀ k, k < i.length → Sys2Proof.Machine.memFault s (s.pc + BitVec.ofNat 64 k) 1 = none ∧
      touchesDevice s (s.pc + BitVec.ofNat 64 k) 1 = false) := by decide +kernel

theorem witness_PlacedWordRunsNext :
    (start 0 []).mem.wf = true ∧ decodeTableWord 48 0x1BCA01FDE3C4 = some (.vpermpdVex256Imm8 vexReg2) ∧
    (∀ k, k < 15 → 15 ≠ ((start 0 []).pc + BitVec.ofNat 64 k).toNat) := by
  decide +kernel

/-- P4: the first step completes, the second raises; and the program of no instructions. -/
def programP4 : Program :=
  { start := 0, encodings := [bytesVexReg, [0xC4, 0xE3, 0xF9, 0x01, 0xD1, 0x1B]] }

theorem witness_RunTakesAtMostOneStepPerInstruction :
    let s := start 0 programP4.encodings.flatten
    (programP4.wf = true ∧ programP4.laidOutIn s = true ∧ s.pc = programP4.start ∧ programP4.encodings ≠ [] ∧
      programP4.last = 12 ∧ (stateOf (step s)).isSome = true) ∧
    (let p : Program := { start := 0, encodings := [[0xC4, 0xE3, 0xF9, 0x01, 0xD1, 0x1B]] }
     let s := start 0 p.encodings.flatten
     p.wf = true ∧ p.laidOutIn s = true ∧ s.pc = p.start ∧ p.encodings ≠ [] ∧ (faultOf (step s)).isSome = true) ∧
    (let p : Program := { start := 0, encodings := [] }
     p.wf = true ∧ p.laidOutIn s = true ∧ s.pc = p.start ∧ p.encodings = []) := by decide +kernel

theorem witness_StepKeepsInvariant : ∃ t, Inv (start 0 bytesVexMem) ∧ step (start 0 bytesVexMem) = .next t :=
  ⟨(next_of_stateOf (by decide +kernel)).choose, inv_of_wf (by decide +kernel) (by decide +kernel) (by decide +kernel),
    (next_of_stateOf (by decide +kernel)).choose_spec⟩

end Sys2Proof.Tests
end

/-! The invariant `Inv` holds at reset and every step keeps it (O50, O51). -/

namespace Sys2Proof.Machine

/-! ### At reset -/

@[simp] theorem readV_reset (n : BitVec 5) : readV State.reset n = 0#512 := by
  simp [readV, State.reset]

@[simp] theorem readK_reset (n : BitVec 3) : readK State.reset n = 0#64 := by
  simp [readK, State.reset]

/-- Settles O50: every register of the reset state holds 0, and its memory lists nothing. -/
theorem resetSatisfiesInvariant : Obligations.ResetSatisfiesInvariant where
  memory := Memory.wf_nil
  vectorWidth n b _ := by rw [readV_reset, BitVec.getLsbD_zero]
  vectorCount n _ := readV_reset n
  opmaskWidth n b _ := by rw [readK_reset, BitVec.getLsbD_zero]

/-! ### The destination of a usable form lies in the configured machine -/

theorem maxVl_of_avx512f {c : Config} (h : c.hasAvx512f = true) : maxVl c = 512 := if_pos h

theorem nvreg_of_avx512f {c : Config} (h : c.hasAvx512f = true) : nvreg c = 32 := if_pos h

theorem le_maxVl (c : Config) : 256 ≤ maxVl c := by unfold maxVl; split <;> decide

theorem le_nvreg (c : Config) : 16 ≤ nvreg c := by unfold nvreg; split <;> decide

theorem vlBits_le (vl : VectorLength) : vlBits vl ≤ 512 := by cases vl <;> decide

/-- A usable form is the VEX form, which names `V[0..15]` at 256 bits (R13, R47), or it has `AVX512F` (R82). -/
theorem vexOperands_or_avx512f {c : Config} {i : Instr} {w : FormView} (hw : viewOf i = some w) (hu : Usable c i) :
    (w.vl = .vl256 ∧ w.dest.toNat < 16) ∨ c.hasAvx512f = true := by
  cases i with
  | vpermpdVex256Imm8 f =>
    obtain rfl := Option.some.inj hw
    refine .inl ⟨rfl, ?_⟩
    have := f.dest.isLt
    simp only [BitVec.toNat_setWidth]
    omega
  | vpermpdEvex256Imm8 | vpermpdEvex512Imm8 | vpermpdEvex256Vec | vpermpdEvex512Vec => exact .inr hu.1
  | illegalVex128Imm8 | illegalEvex128Imm8 | illegalEvex128Vec | illegalEvexLl11Imm8 | illegalEvexLl11Vec =>
    exact hu.elim

theorem vlBits_le_maxVl {c : Config} {i : Instr} {w : FormView} (hw : viewOf i = some w) (hu : Usable c i) :
    vlBits w.vl ≤ maxVl c := by
  obtain ⟨hvl, -⟩ | hf := vexOperands_or_avx512f hw hu
  · exact hvl ▸ le_maxVl c
  · exact maxVl_of_avx512f hf ▸ vlBits_le w.vl

theorem dest_lt_nvreg {c : Config} {i : Instr} {w : FormView} (hw : viewOf i = some w) (hu : Usable c i) :
    w.dest.toNat < nvreg c := by
  obtain ⟨-, hd⟩ | hf := vexOperands_or_avx512f hw hu
  · exact hd.trans_le (le_nvreg c)
  · exact nvreg_of_avx512f hf ▸ w.dest.isLt

/-- The destination's new value is 0 from `VL` up (R15, R64). -/
theorem getLsbD_newDest_ge (s : State) (i : Instr) {w : FormView} {b : Nat} (h : vlBits w.vl ≤ b) :
    (newDest s i w).getLsbD b = false := by
  have hj : kl w.vl ≤ b / 64 := by
    rw [vlBits_eq] at h
    omega
  rw [getLsbD_eq_qword, qword_newDest_ge hj, BitVec.getLsbD_zero]

/-! ### A completed step -/

/-- Completing an instruction keeps the invariant where the machine has the register written and the value's bits. -/
theorem Inv.writePc_writeV {s : State} {d : BitVec 5} {x : Zmm} (p : Word) (hs : Inv s)
    (hd : d.toNat < nvreg s.cfg) (hx : ∀ b, maxVl s.cfg ≤ b → x.getLsbD b = false) :
    Inv (writePc (writeV s d x) p) where
  memory := hs.memory
  vectorWidth n b hb := by
    by_cases hn : n = d
    · rw [hn, readV_writePc, readV_writeV_same]
      exact hx b hb
    · rw [readV_writePc, readV_writeV_other s x hn]
      exact hs.vectorWidth n b hb
  vectorCount n hn := by
    have hne : n ≠ d := fun h => absurd (h ▸ hd) (Nat.not_lt.2 hn)
    rw [readV_writePc, readV_writeV_other s x hne]
    exact hs.vectorCount n hn
  opmaskWidth := hs.opmaskWidth

/-- Settles O51: a step writes one vector register and `pc` (`step_next`), and that register exists on the configured
machine and is as wide as `VL`. -/
theorem stepKeepsInvariant : Obligations.StepKeepsInvariant := by
  intro s t hs hstep
  obtain ⟨i, -, w, -, -, -, hw, hc, -, rfl⟩ := step_next hstep
  exact hs.writePc_writeV _ (dest_lt_nvreg hw hc.usable) fun b hb =>
    getLsbD_newDest_ge s i ((vlBits_le_maxVl hw hc.usable).trans hb)

end Sys2Proof.Machine

/-! What a step reads, writes and leaves alone: the frame of a next state and of a fault (O23, O28, O29), the status
that no step touches (O20, O25), and the reads that decide a form's result (O26, O27, O32). -/

namespace Sys2Proof.Machine

/-! ### The next state of a form -/

@[simp] theorem readV_nextState_dest (s : State) (i : Instr) (w : FormView) :
    readV (nextState s i w) w.dest = newDest s i w := by
  rw [nextState, readV_writePc, readV_writeV_same]

@[simp] theorem nextState_pc (s : State) (i : Instr) (w : FormView) :
    (nextState s i w).pc = s.pc + BitVec.ofNat 64 i.length := rfl

@[simp] theorem nextState_k (s : State) (i : Instr) (w : FormView) : (nextState s i w).k = s.k := rfl

theorem onlyWrites_nextState (s : State) (i : Instr) (w : FormView) : OnlyWrites s (nextState s i w) w.dest :=
  onlyWrites_complete s w.dest (newDest s i w) _

/-- `exec_next_iff` for an instruction whose operands are known. -/
theorem exec_next_iff_of_view {i : Instr} {s t : State} {w : FormView} (hw : viewOf i = some w) :
    exec i s = .next t ↔
      Checked i s ∧ SourceReadable s i.length w.scale w.bytes w.src ∧ t = nextState s i w := by
  simp only [exec_next_iff, hw, Option.some.injEq, exists_eq_left']

theorem eq_nextState_of_exec {i : Instr} {s t : State} {w : FormView} (hw : viewOf i = some w)
    (h : exec i s = .next t) : t = nextState s i w := by
  obtain ⟨-, -, ht⟩ := (exec_next_iff_of_view hw).1 h
  exact ht

/-- Settles O29: the new value of the destination has no bit from `VL` up. -/
theorem destinationIsZeroAboveVl : Obligations.DestinationIsZeroAboveVl := by
  intro i s t w hw hx b hb
  rw [eq_nextState_of_exec hw hx, readV_nextState_dest]
  exact getLsbD_newDest_ge s i hb

/-! ### The state a fault carries (R87) -/

/-- The faults that carry the state `s`. -/
theorem Fault.eq_of_state {x : Fault} {s : State} (h : x.state = s) : x = .ud s ∨ x = .nm s ∨ ∃ e, x = .mem e s := by
  subst h
  cases x with
  | ud s => exact .inl rfl
  | nm s => exact .inr (.inl rfl)
  | mem e s => exact .inr (.inr ⟨e, rfl⟩)

theorem raiseUd_fault_state {s : State} {x : Fault} (h : raiseUd s = .fault x) : x.state = s := by
  cases h
  rfl

/-- The checks raise with the state they look at. -/
theorem afterChecks_fault_state {s : State} {reserved usable : Bool} {k : Result} {x : Fault}
    (hk : k = .fault x → x.state = s) (h : afterChecks s reserved usable k = .fault x) : x.state = s := by
  unfold afterChecks at h
  split_ifs at h
  · exact raiseUd_fault_state h
  · cases h
    rfl
  · exact hk h
  · exact raiseUd_fault_state h

/-- A form's own work, which completes once the source is read, raises only for that read. -/
theorem withSource_complete_fault_state {s : State} {r : SrcRead} {d : BitVec 5} {f : Zmm → Zmm} {len : Nat}
    {x : Fault} (h : withSource s r (fun v => complete s d (f v) len) = .fault x) : x.state = s := by
  cases r with
  | value v => cases h
  | fault e =>
    cases h
    rfl
  | device => cases h

theorem runEvexImm8_fault_state {vl : VectorLength} {usable : Bool} {f : EvexImm8} {s : State} {x : Fault}
    (h : runEvexImm8 vl usable f s = .fault x) : x.state = s :=
  afterChecks_fault_state withSource_complete_fault_state h

theorem runEvexVec_fault_state {vl : VectorLength} {usable : Bool} {f : EvexVec} {s : State} {x : Fault}
    (h : runEvexVec vl usable f s = .fault x) : x.state = s :=
  afterChecks_fault_state withSource_complete_fault_state h

/-- An instruction that raises leaves the state it started from. -/
theorem exec_fault_state {i : Instr} {s : State} {x : Fault} (h : exec i s = .fault x) : x.state = s := by
  cases i with
  | vpermpdVex256Imm8 => exact afterChecks_fault_state withSource_complete_fault_state h
  | vpermpdEvex256Imm8 | vpermpdEvex512Imm8 => exact runEvexImm8_fault_state h
  | vpermpdEvex256Vec | vpermpdEvex512Vec => exact runEvexVec_fault_state h
  | illegalVex128Imm8 | illegalEvex128Imm8 | illegalEvex128Vec | illegalEvexLl11Imm8 | illegalEvexLl11Vec =>
    exact raiseUd_fault_state h

theorem runDecoded_fault_state {d : Decoded} {s : State} {x : Fault} (h : runDecoded d s = .fault x) :
    x.state = s := by
  cases d with
  | instr i rest =>
    rw [runDecoded] at h
    split_ifs at h
    exact exec_fault_state h
  | ud n =>
    rw [runDecoded] at h
    split_ifs at h
    exact raiseUd_fault_state h
  | rejected r => cases h

/-- A step that raises leaves the state it started from. -/
theorem step_fault_state {s : State} {x : Fault} (h : step s = .fault x) : x.state = s := by
  rw [step] at h
  split_ifs at h
  exact runDecoded_fault_state h

/-- Settles O23: a next state is the decoded instruction's `nextState`, and a fault carries the state before. -/
theorem stepWritesDestinationAndPcOnly : Obligations.StepWritesDestinationAndPcOnly := by
  refine fun s => ⟨fun t ht => ?_, fun x hx => Fault.eq_of_state (step_fault_state hx)⟩
  obtain ⟨i, rest, w, hd, -, -, hw, -, -, rfl⟩ := step_next ht
  exact ⟨i, rest, w, hd, hw, onlyWrites_nextState s i w, nextState_pc s i w⟩

/-! ### The instruction pointer (R22) -/

theorem byteAddr_zero (a : Word) : byteAddr a 0 = a := BitVec.add_zero a

/-- The fetch window starts at `pc`. -/
theorem fetchBytes_head (s : State) : (fetchBytes s)[0]? = some (readByte s s.pc) := by
  rw [fetchBytes, List.getElem?_map, List.getElem?_range (by decide : 0 < fetchWindow), Option.map_some, byteAddr_zero]

/-- The RIP-relative address as a sum of integers modulo 2^64. -/
theorem effAddr_ripRel (s : State) (len n : Nat) (d : BitVec 32) :
    effAddr s len n (.ripRel d) = BitVec.ofInt 64 ((s.pc.toNat : Int) + (len : Int) + d.toInt) := by
  rw [effAddr, BitVec.signExtend, BitVec.ofInt_add, BitVec.ofInt_add, BitVec.ofInt_natCast, BitVec.ofInt_natCast,
    BitVec.ofNat_toNat, BitVec.setWidth_eq]

/-- Settles O28: the fetch window's head, the `pc` of `nextState`, the state a fault carries, and `effAddr_ripRel`. -/
theorem pcAdvancesByLen : Obligations.PcAdvancesByLen := by
  refine fun i s => ⟨fetchBytes_head s, fun t ht => ?_, fun x hx => Fault.eq_of_state (exec_fault_state hx),
    effAddr_ripRel s i.length⟩
  obtain ⟨w, -, -, -, rfl⟩ := exec_next_iff.1 ht
  rw [nextState_pc, BitVec.toNat_add, BitVec.toNat_ofNat, Nat.add_mod_mod]

/-! ### Flags, `MXCSR` and the x87 state (R20)

`withStatus` commutes with every stage of a step: the checks, the source read, the form and the dispatch. -/

section Status

variable (r : BitVec 64) (m : BitVec 32) (x : X87) (s : State)

theorem afterChecks_withStatus (reserved usable : Bool) (k : Result) :
    afterChecks (withStatus r m x s) reserved usable (mapResult (withStatus r m x) k) =
      mapResult (withStatus r m x) (afterChecks s reserved usable k) := by
  unfold afterChecks
  rw [withStatus_cfg]
  split_ifs <;> rfl

theorem loadSrc_withStatus (vl : VectorLength) (b : Bool) (len n : Nat) (src : RmOperand 5) :
    loadSrc (withStatus r m x s) vl b len n src = loadSrc s vl b len n src := by
  cases src <;> rfl

/-- What a form does once its source is read. -/
theorem withSource_complete_withStatus (src : SrcRead) (d : BitVec 5) (f : Zmm → Zmm) (len : Nat) :
    withSource (withStatus r m x s) src (fun v => complete (withStatus r m x s) d (f v) len) =
      mapResult (withStatus r m x) (withSource s src fun v => complete s d (f v) len) := by
  cases src <;> rfl

theorem execVpermpdVex256Imm8_withStatus (f : VexImm8) :
    execVpermpdVex256Imm8 f (withStatus r m x s) = mapResult (withStatus r m x) (execVpermpdVex256Imm8 f s) := by
  rw [execVpermpdVex256Imm8, loadSrc_withStatus, readV_withStatus, withSource_complete_withStatus,
    afterChecks_withStatus, withStatus_cfg, execVpermpdVex256Imm8]

theorem runEvexImm8_withStatus (vl : VectorLength) (usable : Bool) (f : EvexImm8) :
    runEvexImm8 vl usable f (withStatus r m x s) = mapResult (withStatus r m x) (runEvexImm8 vl usable f s) := by
  simp only [runEvexImm8, completeMasked, loadSrc_withStatus, readV_withStatus, readK_withStatus,
    withSource_complete_withStatus, afterChecks_withStatus]

theorem runEvexVec_withStatus (vl : VectorLength) (usable : Bool) (f : EvexVec) :
    runEvexVec vl usable f (withStatus r m x s) = mapResult (withStatus r m x) (runEvexVec vl usable f s) := by
  simp only [runEvexVec, completeMasked, loadSrc_withStatus, readV_withStatus, readK_withStatus,
    withSource_complete_withStatus, afterChecks_withStatus]

theorem exec_withStatus (i : Instr) :
    exec i (withStatus r m x s) = mapResult (withStatus r m x) (exec i s) := by
  cases i with
  | vpermpdVex256Imm8 f => exact execVpermpdVex256Imm8_withStatus r m x s f
  | vpermpdEvex256Imm8 f | vpermpdEvex512Imm8 f => exact runEvexImm8_withStatus r m x s _ _ f
  | vpermpdEvex256Vec f | vpermpdEvex512Vec f => exact runEvexVec_withStatus r m x s _ _ f
  | illegalVex128Imm8 | illegalEvex128Imm8 | illegalEvex128Vec | illegalEvexLl11Imm8 | illegalEvexLl11Vec => rfl

theorem fetchable_withStatus (len : Nat) : fetchable (withStatus r m x s) len = fetchable s len := rfl

theorem fetchBytes_withStatus : fetchBytes (withStatus r m x s) = fetchBytes s := rfl

theorem runDecoded_withStatus (d : Decoded) :
    runDecoded d (withStatus r m x s) = mapResult (withStatus r m x) (runDecoded d s) := by
  cases d with
  | instr i rest =>
    rw [runDecoded, runDecoded, fetchable_withStatus, exec_withStatus]
    split_ifs <;> rfl
  | ud n =>
    rw [runDecoded, runDecoded, fetchable_withStatus]
    split_ifs <;> rfl
  | rejected => rfl

theorem step_withStatus : step (withStatus r m x s) = mapResult (withStatus r m x) (step s) := by
  simp only [step, withStatus_cfg, fetchBytes_withStatus, runDecoded_withStatus]
  split_ifs <;> rfl

end Status

/-- A next state holds the flags, `MXCSR` and x87 state of the state before. -/
theorem statusState_of_step {s t : State} (h : step s = .next t) :
    t.rflags = s.rflags ∧ t.mxcsr = s.mxcsr ∧ t.x87 = s.x87 := by
  obtain ⟨i, -, w, -, -, -, -, -, -, rfl⟩ := step_next h
  exact ⟨rfl, rfl, rfl⟩

/-- Settles O25: `withStatus` commutes with `step`, and `nextState` keeps the status. -/
theorem statusIsNeitherReadNorWritten : Obligations.StatusIsNeitherReadNorWritten :=
  fun s r m x => ⟨step_withStatus r m x s, fun _ => statusState_of_step⟩

theorem MemException.vector_mem (e : MemException) : MemException.vector e ∈ [12, 13, 14, 17] := by
  cases e <;> simp [MemException.vector]

/-- The vectors that the machine has (the table of 60_exceptions.md section 9): 19, `#XM`, is not among them. -/
theorem Fault.vector_mem (x : Fault) : x.vector ∈ [6, 7, 12, 13, 14, 17] := by
  cases x with
  | ud | nm => simp [Fault.vector]
  | mem e => exact List.mem_cons_of_mem _ (List.mem_cons_of_mem _ (MemException.vector_mem e))

/-- Changing the state that a fault carries leaves the exception. -/
theorem mapResult_fault (h : State → State) (x : Fault) : ∃ y, mapResult h (.fault x) = .fault y ∧
    y.vector = x.vector ∧ y.errorCode = x.errorCode ∧ y.address = x.address := by
  cases x <;> exact ⟨_, rfl, rfl, rfl, rfl⟩

/-- Settles O20: no fault has another vector, and another `MXCSR` is the case of `step_withStatus` that keeps the
flags and the x87 state. -/
theorem noFloatingPointExceptionIsRaised : Obligations.NoFloatingPointExceptionIsRaised := by
  refine fun s m => ⟨fun x _ => x.vector_mem, fun x hx => ?_, fun t ht => ?_⟩
  · rw [step_withStatus, hx]
    exact mapResult_fault _ x
  · obtain ⟨hr, -, hx⟩ := statusState_of_step ht
    rw [step_withStatus, ht, hr, hx]
    rfl

/-! ### What an instruction reads (R19) -/

theorem indexValue_congr {s s' : State} {scale : BitVec 2} {index : BitVec 4}
    (h : index ≠ 0b0100#4 → readG s' index = readG s index) :
    indexValue s' scale index = indexValue s scale index := by
  by_cases hi : index = 0b0100#4
  · simp [indexValue, hi]
  · simp [indexValue, hi, h hi]

/-- An address depends on `pc` and on the registers that form it (R29). -/
theorem effAddr_congr {s s' : State} {m : MemOperand} (len n : Nat) (hpc : s'.pc = s.pc)
    (hg : ∀ g ∈ addressRegs m, readG s' g = readG s g) : effAddr s' len n m = effAddr s len n m := by
  cases m with
  | ripRel d => simp only [effAddr, hpc]
  | base g d => simp only [effAddr, hg g (by simp [addressRegs])]
  | sib scale index g d =>
    have hbase : readG s' g = readG s g := hg g (by simp only [addressRegs]; split_ifs <;> simp)
    have hindex := indexValue_congr (scale := scale) fun hi => hg index (by simp [addressRegs, hi])
    simp only [effAddr, hbase, hindex]
  | sibNoBase scale index d =>
    have hindex := indexValue_congr (scale := scale) fun hi => hg index (by simp [addressRegs, hi])
    simp only [effAddr, hindex]

theorem memFault_congr {s s' : State} (h : s'.cfg = s.cfg) (a : Word) (n : Nat) : memFault s' a n = memFault s a n := by
  simp only [memFault, h]

theorem touchesDevice_congr {s s' : State} (h : s'.cfg = s.cfg) (a : Word) (n : Nat) :
    touchesDevice s' a n = touchesDevice s a n := by
  simp only [touchesDevice, h]

/-- An element in memory depends on its eight bytes. -/
theorem leQword_congr {s s' : State} {a : Word}
    (h : ∀ c : Word, c.toNat < 8 → readByte s' (a + c) = readByte s (a + c)) :
    leQword s' a = leQword s a := by
  have h0 : readByte s' a = readByte s a := by simpa using h 0 (by decide)
  simp only [leQword, h0, h 1 (by decide), h 2 (by decide), h 3 (by decide), h 4 (by decide), h 5 (by decide),
    h 6 (by decide), h 7 (by decide)]

/-- The bytes of a form's memory operand (R25), by its elements. -/
theorem viewOf_bytes {i : Instr} {w : FormView} (hw : viewOf i = some w) :
    w.bytes = if w.bcast then 8 else 8 * kl w.vl := by
  cases i <;> cases hw <;> rfl

section Agree

variable {i : Instr} {w : FormView} {s s' : State}

theorem AgreeOnReads.effAddr_eq {len : Nat} (h : AgreeOnReads w s s' len) {m : MemOperand} (hm : w.src = .mem m) :
    effAddr s' len w.scale m = effAddr s len w.scale m :=
  effAddr_congr len w.scale h.pc (h.address m hm)

theorem AgreeOnReads.sourceReadable {len : Nat} (h : AgreeOnReads w s s' len)
    (hr : SourceReadable s len w.scale w.bytes w.src) : SourceReadable s' len w.scale w.bytes w.src := by
  cases hsrc : w.src with
  | reg n => trivial
  | mem m =>
    rw [hsrc] at hr
    rwa [SourceReadable, h.effAddr_eq hsrc, memFault_congr h.config, touchesDevice_congr h.config]

theorem AgreeOnReads.sourceElem_eq (hw : viewOf i = some w) {len : Nat} (h : AgreeOnReads w s s' len) {j : Nat}
    (hj : j < kl w.vl) : sourceElem s' len w.scale w.bcast w.src j = sourceElem s len w.scale w.bcast w.src j := by
  cases hsrc : w.src with
  | reg n => exact h.source n hsrc j hj
  | mem m =>
    rw [sourceElem, sourceElem, h.effAddr_eq hsrc]
    refine leQword_congr fun c hc => ?_
    rw [BitVec.add_assoc, ← BitVec.setWidth_eq c, ← BitVec.ofNat_toNat, ← BitVec.ofNat_add]
    refine h.operand m hsrc _ ?_
    rw [viewOf_bytes hw]
    split_ifs <;> omega

theorem vecIndex_congr {vl : VectorLength} {x y : Zmm} {j : Nat} (h : qword x j = qword y j) :
    vecIndex vl x j = vecIndex vl y j := by
  rw [vecIndex, vecIndex, h]

theorem AgreeOnReads.selector_eq (hw : viewOf i = some w) {len : Nat} (h : AgreeOnReads w s s' len) {j : Nat}
    (hj : j < kl w.vl) : selector s' i j = selector s i j := by
  cases i with
  | vpermpdEvex256Vec f | vpermpdEvex512Vec f =>
    cases hw
    exact vecIndex_congr (h.index f.idx rfl j hj)
  | vpermpdVex256Imm8 | vpermpdEvex256Imm8 | vpermpdEvex512Imm8 | illegalVex128Imm8 | illegalEvex128Imm8
  | illegalEvex128Vec | illegalEvexLl11Imm8 | illegalEvexLl11Vec => rfl

theorem AgreeOnReads.maskedElem_eq {len : Nat} (h : AgreeOnReads w s s' len) {j : Nat} (hj : j < kl w.vl)
    (new : Qword) : maskedElem s' w.aaa w.z j (qword (readV s' w.dest) j) new =
      maskedElem s w.aaa w.z j (qword (readV s w.dest) j) new := by
  unfold maskedElem
  by_cases ha : w.aaa = 0#3
  · rw [if_pos (.inl ha), if_pos (.inl ha)]
  · rw [h.mask ha j hj]
    cases hz : w.z with
    | true => rfl
    | false => rw [h.merged ha hz j hj]

/-- The new value of the destination is a function of the read set. -/
theorem AgreeOnReads.newDest_eq (hw : viewOf i = some w) (h : AgreeOnReads w s s' i.length) :
    newDest s' i w = newDest s i w := by
  refine eq_newDest (fun j hj => ?_) fun j hj => qword_newDest_ge hj
  rw [qword_newDest hj, newElem, newElem, h.maskedElem_eq hj, h.selector_eq hw hj,
    h.sourceElem_eq hw (selector_lt hw hj)]

/-- Whether a form completes is decided by the read set too. -/
theorem AgreeOnReads.exec_next {t : State} (hw : viewOf i = some w) (h : AgreeOnReads w s s' i.length)
    (hx : exec i s = .next t) : exec i s' = .next (nextState s' i w) := by
  obtain ⟨hc, hr, -⟩ := (exec_next_iff_of_view hw).1 hx
  obtain ⟨hmode, hvalid, husable, hts⟩ := hc
  have hc' : Checked i s' := by constructor <;> simpa only [h.config]
  exact (exec_next_iff_of_view hw).2 ⟨hc', h.sourceReadable hr, rfl⟩

end Agree

/-- Settles O32: the two next states are `nextState` of two states with the same `newDest` and the same `pc`. -/
theorem resultDependsOnTheReadSetOnly : Obligations.ResultDependsOnTheReadSetOnly := by
  intro i s s' t w hw h hx
  obtain rfl := eq_nextState_of_exec hw hx
  refine ⟨nextState s' i w, h.exec_next hw hx, ?_, ?_⟩
  · rw [readV_nextState_dest, readV_nextState_dest, h.newDest_eq hw]
  · rw [nextState_pc, nextState_pc, h.pc]

/-! ### Other opmask registers (R16, R17) -/

/-- Other opmask registers change no read but that of a selected mask. -/
theorem agreeOnReads_withMasks {w : FormView} {s : State} {masks : Vector (BitVec 64) 8} (len : Nat)
    (h : w.aaa ≠ 0#3 → ∀ j, j < kl w.vl → (readK (withMasks masks s) w.aaa).getLsbD j = (readK s w.aaa).getLsbD j) :
    AgreeOnReads w s (withMasks masks s) len where
  config := rfl
  pc := rfl
  source _ _ _ _ := rfl
  operand _ _ _ _ := rfl
  address _ _ _ _ := rfl
  index _ _ _ _ := rfl
  mask := h
  merged _ _ _ _ := rfl

/-- A form answers the same, but for the opmask file, under masks that agree on the selected bits. -/
theorem exec_withMasks {i : Instr} {s t : State} {w : FormView} {masks : Vector (BitVec 64) 8}
    (hw : viewOf i = some w) (hx : exec i s = .next t)
    (h : w.aaa ≠ 0#3 → ∀ j, j < kl w.vl → (readK (withMasks masks s) w.aaa).getLsbD j = (readK s w.aaa).getLsbD j) :
    exec i (withMasks masks s) = .next (withMasks masks t) := by
  have hagree := agreeOnReads_withMasks i.length h
  rw [hagree.exec_next hw hx, eq_nextState_of_exec hw hx, nextState, hagree.newDest_eq hw]
  rfl

/-- Settles O26: `nextState` keeps the opmask registers, and a form reads `KL` bits of the selected one. -/
theorem opmaskBitsAboveKlHaveNoEffect : Obligations.OpmaskBitsAboveKlHaveNoEffect := by
  intro i s t w masks hw hx
  exact ⟨by rw [eq_nextState_of_exec hw hx, nextState_k], fun h => exec_withMasks hw hx fun _ => h⟩

/-- Without a write mask the new element is a source element. -/
theorem newElem_of_noMask {s : State} {i : Instr} {w : FormView} (h : w.aaa = 0#3) (j : Nat) :
    newElem s i w j = sourceElem s i.length w.scale w.bcast w.src (selector s i j) := if_pos (.inl h)

/-- Settles O27: no mask is read, and each new element is the source's element `selector s i j`. -/
theorem noWritemaskWritesEveryElement : Obligations.NoWritemaskWritesEveryElement := by
  intro i s t w masks hw ha hx
  refine ⟨exec_withMasks hw hx fun hne => absurd ha hne, fun j hj => ⟨selector s i j, selector_lt hw hj, ?_⟩⟩
  rw [eq_nextState_of_exec hw hx, readV_nextState_dest, qword_newDest hj, newElem_of_noMask ha]

end Sys2Proof.Machine

/-! A memory operand's address and bytes (O33, O34), what its read raises whatever the write mask holds (O17, O22,
O45), that no step writes memory (O24), and the completion of the four EVEX forms (O41 to O44). -/

namespace Sys2Proof.Machine

/-! ### What the read of a memory source raises (R33, R34) -/

/-- Past its checks, an EVEX imm8 form goes on from the read of its source. -/
theorem runEvexImm8_checked {vl : VectorLength} {usable : Bool} {f : EvexImm8} {s : State}
    (hm : s.cfg.mode64 = true) (hv : f.valid = true) (hu : usable = true) (ht : s.cfg.taskSwitched = false) :
    ∃ k, runEvexImm8 vl usable f s =
      withSource s (loadSrc s vl f.ctl.b f.length (disp8Scale vl f.ctl.b) f.src) k :=
  ⟨_, afterChecks_pass hm (by rw [evexImm8Reserved_eq, hv]; rfl) hu ht⟩

/-- Past its checks, an EVEX vector-control form goes on from the read of its data. -/
theorem runEvexVec_checked {vl : VectorLength} {usable : Bool} {f : EvexVec} {s : State}
    (hm : s.cfg.mode64 = true) (hv : f.valid = true) (hu : usable = true) (ht : s.cfg.taskSwitched = false) :
    ∃ k, runEvexVec vl usable f s =
      withSource s (loadSrc s vl f.ctl.b f.length (disp8Scale vl f.ctl.b) f.src) k :=
  ⟨_, afterChecks_pass hm (by rw [evexVecReserved_eq, hv]; rfl) hu ht⟩

theorem avx512fUsable_iff {c : Config} : avx512fUsable c = true ↔ c.hasAvx512f = true ∧ c.osAvx512 = true := by
  rw [avx512fUsable, Bool.and_eq_true]

theorem avx512vlUsable_iff {c : Config} :
    avx512vlUsable c = true ↔ c.hasAvx512f = true ∧ c.hasAvx512vl = true ∧ c.osAvx512 = true := by
  rw [avx512vlUsable, Bool.and_eq_true, Bool.and_eq_true, and_assoc]

/-- Past its checks, every form goes on from the read of its source: neither the write mask nor the index register is
looked at before it. -/
theorem exec_of_checked {i : Instr} {s : State} {w : FormView} (hc : Checked i s) (hw : viewOf i = some w) :
    ∃ k, exec i s = withSource s (loadSrc s w.vl w.bcast i.length w.scale w.src) k := by
  obtain ⟨hm, hv, hu, ht⟩ := hc
  cases i with
  | vpermpdVex256Imm8 f =>
    cases hw
    have hr : vexReserved f = false := by rw [vexReserved_eq, show f.valid = true from hv]; rfl
    exact ⟨_, afterChecks_pass hm hr (Bool.and_eq_true_iff.2 hu) ht⟩
  | vpermpdEvex256Imm8 f =>
    cases hw
    exact runEvexImm8_checked hm hv (avx512vlUsable_iff.2 hu) ht
  | vpermpdEvex512Imm8 f =>
    cases hw
    exact runEvexImm8_checked hm hv (avx512fUsable_iff.2 hu) ht
  | vpermpdEvex256Vec f =>
    cases hw
    exact runEvexVec_checked hm hv (avx512vlUsable_iff.2 hu) ht
  | vpermpdEvex512Vec f =>
    cases hw
    exact runEvexVec_checked hm hv (avx512fUsable_iff.2 hu) ht
  | illegalVex128Imm8 | illegalEvex128Imm8 | illegalEvex128Vec | illegalEvexLl11Imm8 | illegalEvexLl11Vec =>
    exact hu.elim

/-- The bytes that a form reads of a memory source are those its operands state (R25). -/
theorem operandBytes_of_view {i : Instr} {w : FormView} (hw : viewOf i = some w) :
    operandBytes w.vl w.bcast = w.bytes := by
  have hkl : 64 * kl w.vl / 8 = 8 * kl w.vl := by omega
  rw [viewOf_bytes hw, bytes_eq, vlBits_eq, hkl]

section MemorySource

variable {i : Instr} {s : State} {w : FormView} {m : MemOperand}

/-- What `MemFault` reports for the bytes of the source is raised. -/
theorem exec_memFault {e : MemException} (hc : Checked i s) (hw : viewOf i = some w) (hsrc : w.src = .mem m)
    (hf : memFault s (effAddr s i.length w.scale m) w.bytes = some e) : exec i s = .fault (.mem e s) := by
  obtain ⟨k, hk⟩ := exec_of_checked hc hw
  rw [← operandBytes_of_view hw] at hf
  rw [hk, hsrc, loadSrc_fault hf]
  rfl

/-- A source that does not fault and touches a device region is refused. -/
theorem exec_device (hc : Checked i s) (hw : viewOf i = some w) (hsrc : w.src = .mem m)
    (hf : memFault s (effAddr s i.length w.scale m) w.bytes = none)
    (hd : touchesDevice s (effAddr s i.length w.scale m) w.bytes = true) : exec i s = .refused .deviceMemory := by
  obtain ⟨k, hk⟩ := exec_of_checked hc hw
  rw [← operandBytes_of_view hw] at hf hd
  rw [hk, hsrc, loadSrc_device hf hd]
  rfl

end MemorySource

/-- Other opmask registers do not move a memory operand. -/
@[simp] theorem effAddr_withMasks (masks : Vector (BitVec 64) 8) (s : State) (len n : Nat) (m : MemOperand) :
    effAddr (withMasks masks s) len n m = effAddr s len n m :=
  effAddr_congr len n rfl fun _ _ => rfl

/-- Settles O17: with other opmask registers the address, the checks and what `MemFault` reports are the same. -/
theorem memoryFaultIsNotSuppressedByTheMask : Obligations.MemoryFaultIsNotSuppressedByTheMask := by
  intro i s w m e masks hm hv hu ht hw hsrc hf
  have hc : Checked i (withMasks masks s) := ⟨hm, hv, hu, ht⟩
  refine exec_memFault hc hw hsrc ?_
  rwa [effAddr_withMasks, memFault_congr (withMasks_cfg masks s)]

/-- Settles O22: `exec_device`. -/
theorem deviceOperandIsRefused : Obligations.DeviceOperandIsRefused :=
  fun _ _ _ _ hm hv hu ht hw hsrc hf hd => exec_device ⟨hm, hv, hu, ht⟩ hw hsrc hf hd

/-- Settles O24: a next state is `nextState`, which writes a register and `pc`. -/
theorem noStepWritesMemory : Obligations.NoStepWritesMemory := by
  intro s t ht
  obtain ⟨i, -, w, -, -, -, -, -, -, rfl⟩ := step_next ht
  have hframe := onlyWrites_nextState s i w
  exact ⟨hframe.memory, hframe.bytes⟩

/-! ### The effective address as a sum of integers modulo 2^64 (R29, R45) -/

/-- A general register as an integer modulo 2^64. -/
theorem eq_ofInt_toNat (x : Word) : x = BitVec.ofInt 64 (x.toNat : Int) := by
  rw [BitVec.ofInt_natCast, BitVec.ofNat_toNat, BitVec.setWidth_eq]

theorem dispValue_disp8 (n : Nat) (d : BitVec 8) : dispValue n (.disp8 d) = BitVec.ofInt 64 (d.toInt * n) := by
  rw [dispValue, BitVec.signExtend, BitVec.ofInt_mul, BitVec.ofInt_natCast]

theorem dispValue_disp32 (n : Nat) (d : BitVec 32) : dispValue n (.disp32 d) = BitVec.ofInt 64 d.toInt := rfl

/-- Index 0100b is no index. -/
@[simp] theorem indexValue_none (s : State) (scale : BitVec 2) : indexValue s scale 0b0100#4 = 0#64 := rfl

/-- Any other index is the register times 1, 2, 4 or 8. -/
theorem indexValue_scaled (s : State) (scale : BitVec 2) {index : BitVec 4} (h : index ≠ 0b0100#4) :
    indexValue s scale index = BitVec.ofNat 64 ((readG s index).toNat * 2 ^ scale.toNat) := by
  rw [indexValue, if_neg (by simpa using h)]
  apply BitVec.eq_of_toNat_eq
  rw [BitVec.toNat_shiftLeft, BitVec.toNat_ofNat, Nat.shiftLeft_eq]

/-- A base register with a displacement whose value is the integer `d`. -/
theorem effAddr_base {n : Nat} {disp : Disp} {d : Int} (s : State) (len : Nat) (g : BitVec 4)
    (h : dispValue n disp = BitVec.ofInt 64 d) :
    effAddr s len n (.base g disp) = BitVec.ofInt 64 ((readG s g).toNat + d) := by
  rw [effAddr, h, BitVec.ofInt_add, ← eq_ofInt_toNat]

/-- A SIB byte with a base adds its index to the address without one. -/
theorem effAddr_sib (s : State) (len n : Nat) (scale : BitVec 2) (index g : BitVec 4) (d : Disp) :
    effAddr s len n (.sib scale index g d) = effAddr s len n (.base g d) + indexValue s scale index := by
  rw [effAddr, effAddr, BitVec.add_assoc, BitVec.add_comm (indexValue s scale index), BitVec.add_assoc]

/-- Settles O33: form by form, each part of the address is the image of a whole number. -/
theorem effectiveAddressIsTheSumModulo2To64 : Obligations.EffectiveAddressIsTheSumModulo2To64 := by
  refine fun s len n => ⟨effAddr_ripRel s len n, fun g => ?_, fun g d => ?_, fun g d => ?_, fun sc ix g d hix => ?_,
    fun sc g d => ?_, fun sc ix d hix => ?_, fun sc d => ?_⟩
  · exact BitVec.add_zero _
  · exact effAddr_base s len g (dispValue_disp8 n d)
  · exact effAddr_base s len g (dispValue_disp32 n d)
  · rw [effAddr_sib, indexValue_scaled s sc hix]
  · rw [effAddr_sib, indexValue_none, BitVec.add_zero]
  · rw [effAddr, indexValue_scaled s sc hix, BitVec.signExtend, BitVec.ofInt_add, BitVec.ofInt_natCast]
  · rw [effAddr, indexValue_none, BitVec.zero_add, BitVec.signExtend]

/-! ### Byte order (R30) -/

/-- Byte `k` of the fetch window is the byte at `pc + k`. -/
theorem fetchBytes_getElem? (s : State) {k : Nat} (hk : k < fetchWindow) :
    (fetchBytes s)[k]? = some (readByte s (byteAddr s.pc k)) := by
  rw [fetchBytes, List.getElem?_map, List.getElem?_range hk, Option.map_some]

/-- The four bytes of a 32-bit displacement, the last appended the least significant. -/
theorem extractLsb'_append_bytes (b0 b1 b2 b3 : Byte) :
    (b3 ++ b2 ++ b1 ++ b0).extractLsb' 0 8 = b0 ∧ (b3 ++ b2 ++ b1 ++ b0).extractLsb' 8 8 = b1 ∧
    (b3 ++ b2 ++ b1 ++ b0).extractLsb' 16 8 = b2 ∧ (b3 ++ b2 ++ b1 ++ b0).extractLsb' 24 8 = b3 := by
  refine ⟨BitVec.extractLsb'_append_eq_right, ?_, ?_, ?_⟩
  · rw [BitVec.extractLsb'_append_eq_of_le (by decide)]
    exact BitVec.extractLsb'_append_eq_right
  · rw [BitVec.extractLsb'_append_eq_of_le (by decide), BitVec.extractLsb'_append_eq_of_le (by decide)]
    exact BitVec.extractLsb'_append_eq_right
  · rw [BitVec.extractLsb'_append_eq_of_le (by decide), BitVec.extractLsb'_append_eq_of_le (by decide)]
    exact BitVec.extractLsb'_append_eq_left

/-- Settles O34: `memRead_byte` and `memRead_qword`, the fetch window, and the bytes that `parseDisp32` appends. -/
theorem memoryIsLittleEndian : Obligations.MemoryIsLittleEndian := by
  refine ⟨fun s a n hn => ⟨fun k hk => memRead_byte s a hn hk, fun j hj => memRead_qword s a hn hj⟩,
    fun s k hk => fetchBytes_getElem? s hk, fun b0 b1 b2 b3 rest => ⟨_, rfl, extractLsb'_append_bytes b0 b1 b2 b3⟩⟩

/-! ### Completion (R70, R71, R74, R75) -/

/-- A form that passes its checks and can read its source completes. -/
theorem exec_completes {i : Instr} {s : State} {w : FormView} (hc : Checked i s) (hw : viewOf i = some w)
    (hr : SourceReadable s i.length w.scale w.bytes w.src) : exec i s = .next (nextState s i w) :=
  (exec_next_iff_of_view hw).2 ⟨hc, hr, rfl⟩

/-- Element `j` of the completed destination, below `KL`, given the source element that goes there. -/
theorem qword_nextState_dest {i : Instr} {s : State} {w : FormView} {j e : Nat} (hj : j < kl w.vl)
    (he : selector s i j = e) :
    qword (readV (nextState s i w) w.dest) j = maskedElem s w.aaa w.z j (qword (readV s w.dest) j)
      (sourceElem s i.length w.scale w.bcast w.src e) := by
  rw [readV_nextState_dest, qword_newDest hj, newElem, he]

/-- The completed destination is 0 from `VL` up. -/
theorem qword_nextState_dest_ge {i : Instr} {s : State} {w : FormView} {j : Nat} (hj : kl w.vl ≤ j) :
    qword (readV (nextState s i w) w.dest) j = 0#64 := by
  rw [readV_nextState_dest, qword_newDest_ge hj]

/-- In the low half the immediate's field `j` selects. -/
theorem permImm_index_low (imm : Byte) {j : Nat} (hj : j < 4) :
    4 * (j / 4) + immIndex imm j = (imm.extractLsb' (2 * j) 2).toNat := by
  rw [immIndex, Nat.div_eq_of_lt hj, Nat.mod_eq_of_lt hj, Nat.mul_zero, Nat.zero_add]

/-- In the high half the same field selects, from the high half. -/
theorem permImm_index_high (imm : Byte) {j : Nat} (hj : j < 4) :
    4 * ((4 + j) / 4) + immIndex imm (4 + j) = 4 + (imm.extractLsb' (2 * j) 2).toNat := by
  rw [immIndex, Nat.add_div_left j (by decide), Nat.add_mod_left, Nat.div_eq_of_lt hj, Nat.mod_eq_of_lt hj]

/-- The low bits of an index element, read straight from the register. -/
theorem vecIndex_eq_extractLsb' (vl : VectorLength) (x : Zmm) (j : Nat) :
    vecIndex vl x j = (x.extractLsb' (64 * j) (indexBits vl)).toNat := by
  have hbits : indexBits vl ≤ 64 := by cases vl <;> decide
  refine congrArg BitVec.toNat (BitVec.eq_of_getLsbD_eq fun b hb => ?_)
  have h64 : b < 64 := hb.trans_le hbits
  simp [qword, hb, h64]

/-- Settles O41: `nextState`, with the immediate's selector below 4. -/
theorem evex256Imm8Completes : Obligations.Evex256Imm8Completes := by
  intro f s hm hv hf hvl hos ht hr
  have hc : Checked (.vpermpdEvex256Imm8 f) s := ⟨hm, hv, ⟨hf, hvl, hos⟩, ht⟩
  exact ⟨_, exec_completes hc rfl hr, rfl, fun j hj => qword_nextState_dest hj (permImm_index_low f.imm hj),
    fun j hj => qword_nextState_dest_ge hj, onlyWrites_nextState s _ _⟩

/-- Settles O42: `nextState`, with the immediate's selector in either half. -/
theorem evex512Imm8Completes : Obligations.Evex512Imm8Completes := by
  intro f s hm hv hf hos ht hr
  have hc : Checked (.vpermpdEvex512Imm8 f) s := ⟨hm, hv, ⟨hf, hos⟩, ht⟩
  refine ⟨_, exec_completes hc rfl hr, rfl, fun j hj => ?_, fun j hj => ?_, onlyWrites_nextState s _ _⟩
  · have hkl : j < kl .vl512 := hj.trans (by decide)
    exact qword_nextState_dest hkl (permImm_index_low f.imm hj)
  · have hkl : 4 + j < kl .vl512 := Nat.add_lt_add_left hj 4
    exact qword_nextState_dest hkl (permImm_index_high f.imm hj)

/-- Settles O43: `nextState`, with two bits of each index element. -/
theorem evex256VecCompletes : Obligations.Evex256VecCompletes := by
  intro f s hm hv hf hvl hos ht hr
  have hc : Checked (.vpermpdEvex256Vec f) s := ⟨hm, hv, ⟨hf, hvl, hos⟩, ht⟩
  exact ⟨_, exec_completes hc rfl hr, rfl,
    fun j hj => qword_nextState_dest hj (vecIndex_eq_extractLsb' .vl256 (readV s f.idx) j),
    fun j hj => qword_nextState_dest_ge hj, onlyWrites_nextState s _ _⟩

/-- Settles O44: `nextState`, with three bits of each index element. -/
theorem evex512VecCompletes : Obligations.Evex512VecCompletes := by
  intro f s hm hv hf hos ht hr
  have hc : Checked (.vpermpdEvex512Vec f) s := ⟨hm, hv, ⟨hf, hos⟩, ht⟩
  exact ⟨_, exec_completes hc rfl hr, rfl,
    fun j hj => qword_nextState_dest hj (vecIndex_eq_extractLsb' .vl512 (readV s f.idx) j),
    onlyWrites_nextState s _ _⟩

/-! ### An all-zero mask (R56) -/

/-- An element whose mask bit is 0 is 0 under zeroing-masking, else the old one. -/
theorem maskedElem_of_clear {s : State} {aaa : BitVec 3} {z : Bool} {j : Nat} {old new : Qword} (ha : aaa ≠ 0#3)
    (hk : (readK s aaa).getLsbD j = false) :
    maskedElem s aaa z j old new = if z = true then 0#64 else old := by
  simp [maskedElem, ha, hk]

/-- The destination's new value under a mask whose bits below `KL` are 0, bit by bit. -/
theorem getLsbD_newDest_of_clear {s : State} {w : FormView} (i : Instr) (ha : w.aaa ≠ 0#3)
    (hk : ∀ j, j < kl w.vl → (readK s w.aaa).getLsbD j = false) (b : Nat) :
    (newDest s i w).getLsbD b = (!w.z && decide (b < vlBits w.vl) && (readV s w.dest).getLsbD b) := by
  by_cases hb : b < vlBits w.vl
  · have hj : b / 64 < kl w.vl := by
      rw [vlBits_eq] at hb
      omega
    rw [getLsbD_eq_qword, qword_newDest hj, newElem, maskedElem_of_clear ha (hk _ hj)]
    cases hz : w.z with
    | true => simp
    | false => simp [hb, ← getLsbD_eq_qword]
  · rw [getLsbD_newDest_ge s i (Nat.le_of_not_lt hb)]
    simp [hb]

/-- Settles O45: the operand's read comes before the mask, and no new element is written. -/
theorem allZeroMaskStillClearsTheUpperBits : Obligations.AllZeroMaskStillClearsTheUpperBits := by
  intro i s w hm hv hu ht hw ha hk
  have hc : Checked i s := ⟨hm, hv, hu, ht⟩
  refine ⟨fun m e hsrc hf => exec_memFault hc hw hsrc hf, fun hr => ⟨_, exec_completes hc hw hr, fun b => ?_⟩⟩
  rw [readV_nextState_dest, getLsbD_newDest_of_clear i ha hk]

end Sys2Proof.Machine

/-! Decoding undoes encoding (O2), field by field: ModRM and SIB, the bytes before the opcode, then the
ten rows. -/

namespace Sys2Proof

/-! ### Displacement, SIB and ModRM (R44) -/

/-- The three fields of a ModRM or SIB byte. -/
theorem modRM_fields (mod : BitVec 2) (reg rm : BitVec 3) :
    (mod ++ reg ++ rm).extractLsb' 6 2 = mod ∧ (mod ++ reg ++ rm).extractLsb' 3 3 = reg ∧
      (mod ++ reg ++ rm).extractLsb' 0 3 = rm := by
  refine ⟨?_, ?_, ?_⟩ <;> grind

theorem parseDisp32_encodeDisp32 (d : BitVec 32) (rest : List Byte) :
    parseDisp32 (encodeDisp32 d ++ rest) = some (d, rest) := by
  have bytes : d.extractLsb' 24 8 ++ d.extractLsb' 16 8 ++ d.extractLsb' 8 8 ++ d.extractLsb' 0 8 = d := by grind
  simp only [encodeDisp32, List.cons_append, List.nil_append, parseDisp32, bytes]

theorem parseDisp_encodeDisp (d : Disp) (rest : List Byte) :
    parseDisp d.mod (encodeDisp d ++ rest) = some (d, rest) := by
  cases d with
  | none => rfl
  | disp8 => rfl
  | disp32 d => simp [parseDisp, Disp.mod, encodeDisp, parseDisp32_encodeDisp32]

/-- A general register is its extension bit and its three ModRM or SIB bits (R47). -/
theorem extensionBit_append (g : BitVec 4) : BitVec.ofBool (g.getLsbD 3) ++ g.setWidth 3 = g := by grind

theorem Disp.mod_ne_three (d : Disp) : d.mod ≠ 3#2 := by cases d <;> simp [Disp.mod]

theorem Disp.mod_eq_zero (d : Disp) : (d.mod == 0#2) = d.isNone := by cases d <;> rfl

theorem parseSib_sib {sc : BitVec 2} {ix g : BitVec 4} {d : Disp} (rest : List Byte)
    (h : (MemOperand.sib sc ix g d).encodable = true) :
    parseSib (ix.getLsbD 3) (g.getLsbD 3) d.mod
      ((sc ++ ix.setWidth 3 ++ g.setWidth 3) :: (encodeDisp d ++ rest)) = some (.sib sc ix g d, rest) := by
  obtain ⟨hs, hi, hb⟩ := modRM_fields sc (ix.setWidth 3) (g.setWidth 3)
  have hbase : (g.setWidth 3 == 5#3 && d.mod == 0#2) = false := by
    rw [Bool.and_comm, Disp.mod_eq_zero]
    simpa only [MemOperand.encodable, Bool.not_eq_true'] using h
  simp [-BitVec.getLsbD_eq_getElem, parseSib, hs, hi, hb, hbase, parseDisp_encodeDisp, extensionBit_append]

theorem parseSib_sibNoBase (b : Bool) (sc : BitVec 2) (ix : BitVec 4) (d : BitVec 32) (rest : List Byte) :
    parseSib (ix.getLsbD 3) b 0#2 ((sc ++ ix.setWidth 3 ++ 5#3) :: (encodeDisp32 d ++ rest)) =
      some (.sibNoBase sc ix d, rest) := by
  obtain ⟨hs, hi, hb⟩ := modRM_fields sc (ix.setWidth 3) 5#3
  simp [-BitVec.getLsbD_eq_getElem, parseSib, hs, hi, hb, parseDisp32_encodeDisp32, extensionBit_append]

/-- Parsing undoes encoding up to a register's extension bits, which stand before the opcode. -/
theorem parseRm_encodeRm {w : Nat} (reg : BitVec 3) (o : RmOperand w) (rest : List Byte)
    (h : o.encodable = true) :
    parseRm o.xBit o.bBit (encodeRm reg o ++ rest) = some (reg, o.mapReg fun n => n.setWidth 3, rest) := by
  cases o with
  | reg n =>
    obtain ⟨hm, hr, hn⟩ := modRM_fields 3#2 reg (n.setWidth 3)
    simp [-BitVec.getLsbD_eq_getElem, encodeRm, parseRm, hm, hr, hn, RmOperand.mapReg]
  | mem m =>
    cases m with
    | ripRel d =>
      obtain ⟨hm, hr, hn⟩ := modRM_fields 0#2 reg 5#3
      simp [-BitVec.getLsbD_eq_getElem, encodeRm, parseRm, hm, hr, hn, RmOperand.mapReg, parseDisp32_encodeDisp32]
    | base g d =>
      obtain ⟨hm, hr, hn⟩ := modRM_fields d.mod reg (g.setWidth 3)
      obtain ⟨hsib, hrip⟩ : g.setWidth 3 ≠ 4#3 ∧ (d.mod == 0#2 && g.setWidth 3 == 5#3) = false := by
        rw [Disp.mod_eq_zero]
        simpa only [RmOperand.encodable, MemOperand.encodable, Bool.and_eq_true, bne_iff_ne, Bool.not_eq_true'] using h
      simp [-BitVec.getLsbD_eq_getElem, encodeRm, parseRm, hm, hr, hn, hsib, hrip, RmOperand.mapReg, RmOperand.bBit,
        d.mod_ne_three, parseDisp_encodeDisp, extensionBit_append]
    | sib sc ix g d =>
      obtain ⟨hm, hr, hn⟩ := modRM_fields d.mod reg 4#3
      simp [-BitVec.getLsbD_eq_getElem, encodeRm, parseRm, hm, hr, hn, RmOperand.mapReg, RmOperand.xBit,
        RmOperand.bBit, d.mod_ne_three, parseSib_sib _ h]
    | sibNoBase sc ix d =>
      obtain ⟨hm, hr, hn⟩ := modRM_fields 0#2 reg 4#3
      simp [-BitVec.getLsbD_eq_getElem, encodeRm, parseRm, hm, hr, hn, RmOperand.mapReg, RmOperand.xBit,
        RmOperand.bBit, parseSib_sibNoBase]

/-- The bit `B` completes a VEX register number (R47). -/
theorem mapReg_bBit (o : RmOperand 4) :
    (o.mapReg fun n => n.setWidth 3).mapReg (fun rm => BitVec.ofBool o.bBit ++ rm) = o := by
  cases o with
  | reg n => exact congrArg RmOperand.reg (extensionBit_append n)
  | mem m => rfl

/-- The bits `X` and `B` complete an EVEX register number (R47). -/
theorem mapReg_xBit_bBit (o : RmOperand 5) :
    (o.mapReg fun n => n.setWidth 3).mapReg (fun rm => BitVec.ofBool o.xBit ++ BitVec.ofBool o.bBit ++ rm) = o := by
  cases o with
  | reg n =>
    have bits : BitVec.ofBool (n.getLsbD 4) ++ BitVec.ofBool (n.getLsbD 3) ++ n.setWidth 3 = n := by grind
    exact congrArg RmOperand.reg bits
  | mem m => rfl

/-! ### What the decoder reads before the opcode (R54, R55) -/

/-- The fixed fields of a VEX encoding's second and third byte and its opcode (R54). -/
structure VexHead (p0 p1 opcode : Byte) : Prop where
  map : p0.extractLsb' 0 5 = 0b00011#5
  pp : p1.extractLsb' 0 2 = 0b01#2
  w : p1.getLsbD 7 = true
  code : opcode = 0x01#8

/-- The fixed fields of an EVEX encoding with map `mm` and opcode `code` (R55). -/
structure EvexHead (mm : BitVec 2) (code p0 p1 opcode : Byte) : Prop where
  map : p0.extractLsb' 0 2 = mm
  pp : p1.extractLsb' 0 2 = 0b01#2
  w : p1.getLsbD 7 = true
  code : opcode = code

/-- The fields that R54 reads. -/
def vexImm8Of (p0 p1 : Byte) (reg : BitVec 3) (o : RmOperand 3) (imm : Byte) : VexImm8 :=
  { dest := BitVec.ofBool (!p0.getLsbD 7) ++ reg
    src := o.mapReg fun rm => BitVec.ofBool (!p0.getLsbD 5) ++ rm
    imm := imm
    vvvv := p1.extractLsb' 3 4 }

/-- The destination that R55 reads. -/
def evexDestOf (p0 : Byte) (reg : BitVec 3) : BitVec 5 :=
  BitVec.ofBool (!p0.getLsbD 4) ++ BitVec.ofBool (!p0.getLsbD 7) ++ reg

/-- The `r/m` operand that R55 reads. -/
def evexSrcOf (p0 : Byte) (o : RmOperand 3) : RmOperand 5 :=
  o.mapReg fun rm => BitVec.ofBool (!p0.getLsbD 6) ++ BitVec.ofBool (!p0.getLsbD 5) ++ rm

/-- The control fields that R55 reads. -/
def evexControlOf (p0 p1 p2 : Byte) : EvexControl :=
  { aaa := p2.extractLsb' 0 3
    z := p2.getLsbD 7
    b := p2.getLsbD 4
    p0Reserved := p0.extractLsb' 2 2
    p1Fixed := p1.getLsbD 2 }

/-- The fields that R55 reads of an imm8 form. -/
def evexImm8Of (p0 p1 p2 : Byte) (reg : BitVec 3) (o : RmOperand 3) (imm : Byte) : EvexImm8 :=
  { dest := evexDestOf p0 reg, src := evexSrcOf p0 o, imm := imm, ctl := evexControlOf p0 p1 p2
    vvvv := p1.extractLsb' 3 4, vPrime := p2.getLsbD 3 }

/-- The fields that R55 reads of a vector-control form. -/
def evexVecOf (p0 p1 p2 : Byte) (reg : BitVec 3) (o : RmOperand 3) : EvexVec :=
  { dest := evexDestOf p0 reg, idx := BitVec.ofBool (!p2.getLsbD 3) ++ ~~~(p1.extractLsb' 3 4)
    src := evexSrcOf p0 o, ctl := evexControlOf p0 p1 p2 }

theorem decodeVex_of_head {p0 p1 opcode imm : Byte} {bs rest : List Byte} {reg : BitVec 3} {o : RmOperand 3}
    (h : VexHead p0 p1 opcode)
    (hrm : parseRm (!p0.getLsbD 6) (!p0.getLsbD 5) bs = some (reg, o, imm :: rest)) :
    decodeVex (p0 :: p1 :: opcode :: bs) = .instr (vexRow (p1.getLsbD 2) (vexImm8Of p0 p1 reg o imm)) rest := by
  obtain ⟨hm, hp, hw, hc⟩ := h
  simp only [decodeVex, hm, hp, hw, hc, hrm, beq_self_eq_true, Bool.and_self, if_true, vexImm8Of]

theorem decodeEvex_of_imm8Head {p0 p1 p2 opcode imm : Byte} {bs rest : List Byte} {reg : BitVec 3} {o : RmOperand 3}
    (h : EvexHead 0b11#2 0x01#8 p0 p1 opcode)
    (hrm : parseRm (!p0.getLsbD 6) (!p0.getLsbD 5) bs = some (reg, o, imm :: rest)) :
    decodeEvex (p0 :: p1 :: p2 :: opcode :: bs) =
      .instr (evexImm8Row (p2.extractLsb' 5 2) (evexImm8Of p0 p1 p2 reg o imm)) rest := by
  obtain ⟨hm, hp, hw, hc⟩ := h
  simp only [decodeEvex, hm, hp, hw, hc, hrm, beq_self_eq_true, Bool.and_self, Bool.true_or, if_true, evexImm8Of,
    evexDestOf, evexSrcOf, evexControlOf]

theorem decodeEvex_of_vecHead {p0 p1 p2 opcode : Byte} {bs rest : List Byte} {reg : BitVec 3} {o : RmOperand 3}
    (h : EvexHead 0b10#2 0x16#8 p0 p1 opcode)
    (hrm : parseRm (!p0.getLsbD 6) (!p0.getLsbD 5) bs = some (reg, o, rest)) :
    decodeEvex (p0 :: p1 :: p2 :: opcode :: bs) =
      .instr (evexVecRow (p2.extractLsb' 5 2) (evexVecOf p0 p1 p2 reg o)) rest := by
  obtain ⟨hm, hp, hw, hc⟩ := h
  have hform : (0b10#2 == 0b11#2 && 0x16#8 == 0x01#8) = false := by decide
  simp only [decodeEvex, hm, hp, hw, hc, hrm, hform, beq_self_eq_true, Bool.and_self, Bool.or_true, if_true,
    Bool.false_eq_true, if_false, evexVecOf, evexDestOf, evexSrcOf, evexControlOf]

/-! ### What the encoder writes before the opcode (R42, R43) -/

/-- What R54 reads in the two bytes behind `C4h` of the encoding of `f`. -/
structure VexPrefix (l : Bool) (f : VexImm8) (p0 p1 : Byte) : Prop where
  head : VexHead p0 p1 0x01#8
  length : p1.getLsbD 2 = l
  x : (!p0.getLsbD 6) = f.src.xBit
  b : (!p0.getLsbD 5) = f.src.bBit
  dest : BitVec.ofBool (!p0.getLsbD 7) ++ f.dest.setWidth 3 = f.dest
  vvvv : p1.extractLsb' 3 4 = f.vvvv

theorem encodeVex_eq (l : Bool) (f : VexImm8) : ∃ p0 p1,
    encodeVex l f = 0xC4#8 :: p0 :: p1 :: 0x01#8 :: (encodeRm (f.dest.setWidth 3) f.src ++ [f.imm]) ∧
      VexPrefix l f p0 p1 := by
  refine ⟨_, _, rfl, ⟨?_, ?_, ?_, rfl⟩, ?_, ?_, ?_, ?_, ?_⟩ <;> grind

theorem VexPrefix.vexImm8Of_eq {l : Bool} {f : VexImm8} {p0 p1 : Byte} (h : VexPrefix l f p0 p1) :
    vexImm8Of p0 p1 (f.dest.setWidth 3) (f.src.mapReg fun n => n.setWidth 3) f.imm = f := by
  rw [vexImm8Of, h.dest, h.b, mapReg_bBit, h.vvvv]

/-- What R55 reads in the three bytes behind `62h`: map, length, `v~`, `V'~`, and operand and control fields. -/
structure EvexPrefix (mm ll : BitVec 2) (dest : BitVec 5) (src : RmOperand 5) (c : EvexControl) (v : BitVec 4)
    (v' : Bool) (p0 p1 p2 : Byte) : Prop where
  head (code : Byte) : EvexHead mm code p0 p1 code
  length : p2.extractLsb' 5 2 = ll
  x : (!p0.getLsbD 6) = src.xBit
  b : (!p0.getLsbD 5) = src.bBit
  dest : evexDestOf p0 (dest.setWidth 3) = dest
  control : evexControlOf p0 p1 p2 = c
  vvvv : p1.extractLsb' 3 4 = v
  vPrime : p2.getLsbD 3 = v'

theorem encodeEvexPrefix_eq (mm ll : BitVec 2) (dest : BitVec 5) (src : RmOperand 5) (c : EvexControl) (v : BitVec 4)
    (v' : Bool) : ∃ p0 p1 p2, encodeEvexPrefix mm ll dest src c v v' = [0x62#8, p0, p1, p2] ∧
      EvexPrefix mm ll dest src c v v' p0 p1 p2 := by
  refine ⟨_, _, _, rfl, fun code => ⟨?_, ?_, ?_, rfl⟩, ?_, ?_, ?_, ?dest, ?control, ?_, ?_⟩
  case dest => grind [evexDestOf]
  case control =>
    obtain ⟨aaa, z, b, reserved, fixed⟩ := c
    rw [evexControlOf, EvexControl.mk.injEq]
    refine ⟨?_, ?_, ?_, ?_, ?_⟩ <;> grind
  all_goals grind

theorem encodeEvexImm8_eq (ll : BitVec 2) (f : EvexImm8) : ∃ p0 p1 p2,
    encodeEvexImm8 ll f = 0x62#8 :: p0 :: p1 :: p2 :: 0x01#8 :: (encodeRm (f.dest.setWidth 3) f.src ++ [f.imm]) ∧
      EvexPrefix 0b11#2 ll f.dest f.src f.ctl f.vvvv f.vPrime p0 p1 p2 := by
  obtain ⟨p0, p1, p2, hbytes, hp⟩ := encodeEvexPrefix_eq 0b11#2 ll f.dest f.src f.ctl f.vvvv f.vPrime
  exact ⟨p0, p1, p2, by rw [encodeEvexImm8, hbytes]; rfl, hp⟩

theorem encodeEvexVec_eq (ll : BitVec 2) (f : EvexVec) : ∃ p0 p1 p2,
    encodeEvexVec ll f = 0x62#8 :: p0 :: p1 :: p2 :: 0x16#8 :: encodeRm (f.dest.setWidth 3) f.src ∧
      EvexPrefix 0b10#2 ll f.dest f.src f.ctl (~~~(f.idx.setWidth 4)) (!f.idx.getLsbD 4) p0 p1 p2 := by
  obtain ⟨p0, p1, p2, hbytes, hp⟩ :=
    encodeEvexPrefix_eq 0b10#2 ll f.dest f.src f.ctl (~~~(f.idx.setWidth 4)) (!f.idx.getLsbD 4)
  exact ⟨p0, p1, p2, by rw [encodeEvexVec, hbytes]; rfl, hp⟩

section EvexPrefix

variable {mm ll : BitVec 2} {p0 p1 p2 : Byte}

theorem EvexPrefix.evexSrcOf_eq {dest : BitVec 5} {src : RmOperand 5} {c : EvexControl} {v : BitVec 4} {v' : Bool}
    (h : EvexPrefix mm ll dest src c v v' p0 p1 p2) : evexSrcOf p0 (src.mapReg fun n => n.setWidth 3) = src := by
  rw [evexSrcOf, h.x, h.b, mapReg_xBit_bBit]

theorem EvexPrefix.evexImm8Of_eq {f : EvexImm8} (h : EvexPrefix mm ll f.dest f.src f.ctl f.vvvv f.vPrime p0 p1 p2) :
    evexImm8Of p0 p1 p2 (f.dest.setWidth 3) (f.src.mapReg fun n => n.setWidth 3) f.imm = f := by
  rw [evexImm8Of, h.dest, h.evexSrcOf_eq, h.control, h.vvvv, h.vPrime]

theorem EvexPrefix.evexVecOf_eq {f : EvexVec}
    (h : EvexPrefix mm ll f.dest f.src f.ctl (~~~(f.idx.setWidth 4)) (!f.idx.getLsbD 4) p0 p1 p2) :
    evexVecOf p0 p1 p2 (f.dest.setWidth 3) (f.src.mapReg fun n => n.setWidth 3) = f := by
  have idx : BitVec.ofBool (f.idx.getLsbD 4) ++ f.idx.setWidth 4 = f.idx := by grind
  rw [evexVecOf, h.dest, h.evexSrcOf_eq, h.control, h.vvvv, h.vPrime, Bool.not_not, BitVec.not_not, idx]

end EvexPrefix

/-! ### The ten rows in three shapes -/

theorem decodeBody_encodeVex (l : Bool) {f : VexImm8} (h : f.src.encodable = true) (rest : List Byte) :
    decodeBody (encodeVex l f ++ rest) = .instr (vexRow l f) rest := by
  obtain ⟨p0, p1, hbytes, hp⟩ := encodeVex_eq l f
  have hrm := parseRm_encodeRm (f.dest.setWidth 3) f.src (f.imm :: rest) h
  rw [← hp.x, ← hp.b] at hrm
  have hdec := decodeVex_of_head hp.head hrm
  rw [hp.length, hp.vexImm8Of_eq] at hdec
  simpa [hbytes, decodeBody] using hdec

theorem decodeBody_encodeEvexImm8 (ll : BitVec 2) {f : EvexImm8} (h : f.src.encodable = true) (rest : List Byte) :
    decodeBody (encodeEvexImm8 ll f ++ rest) = .instr (evexImm8Row ll f) rest := by
  obtain ⟨p0, p1, p2, hbytes, hp⟩ := encodeEvexImm8_eq ll f
  have hrm := parseRm_encodeRm (f.dest.setWidth 3) f.src (f.imm :: rest) h
  rw [← hp.x, ← hp.b] at hrm
  have hdec := decodeEvex_of_imm8Head (p2 := p2) (hp.head 0x01#8) hrm
  rw [hp.length, hp.evexImm8Of_eq] at hdec
  simpa [hbytes, decodeBody] using hdec

theorem decodeBody_encodeEvexVec (ll : BitVec 2) {f : EvexVec} (h : f.src.encodable = true) (rest : List Byte) :
    decodeBody (encodeEvexVec ll f ++ rest) = .instr (evexVecRow ll f) rest := by
  obtain ⟨p0, p1, p2, hbytes, hp⟩ := encodeEvexVec_eq ll f
  have hrm := parseRm_encodeRm (f.dest.setWidth 3) f.src rest h
  rw [← hp.x, ← hp.b] at hrm
  have hdec := decodeEvex_of_vecHead (p2 := p2) (hp.head 0x16#8) hrm
  rw [hp.length, hp.evexVecOf_eq] at hdec
  simpa [hbytes, decodeBody] using hdec

/-- An instruction is a VEX, an EVEX imm8 or an EVEX vector-control row, at some length value. -/
theorem Instr.shapeCases {P : Instr → Prop} (vex : ∀ l f, P (vexRow l f)) (imm8 : ∀ ll f, P (evexImm8Row ll f))
    (vec : ∀ ll f, P (evexVecRow ll f)) (i : Instr) : P i := by
  cases i with
  | vpermpdVex256Imm8 f => exact vex true f
  | vpermpdEvex256Imm8 f => exact imm8 1#2 f
  | vpermpdEvex512Imm8 f => exact imm8 2#2 f
  | vpermpdEvex256Vec f => exact vec 1#2 f
  | vpermpdEvex512Vec f => exact vec 2#2 f
  | illegalVex128Imm8 f => exact vex false f
  | illegalEvex128Imm8 f => exact imm8 0#2 f
  | illegalEvex128Vec f => exact vec 0#2 f
  | illegalEvexLl11Imm8 f => exact imm8 3#2 f
  | illegalEvexLl11Vec f => exact vec 3#2 f

/-- The four values of `L'L`. -/
theorem lengthField_cases {P : BitVec 2 → Prop} (h0 : P 0#2) (h1 : P 1#2) (h2 : P 2#2) (h3 : P 3#2) (ll : BitVec 2) :
    P ll := by
  obtain rfl | rfl | rfl | rfl : ll = 0#2 ∨ ll = 1#2 ∨ ll = 2#2 ∨ ll = 3#2 := by revert ll; decide
  exacts [h0, h1, h2, h3]

@[simp] theorem vexRow_encodable (l : Bool) (f : VexImm8) : (vexRow l f).encodable = f.src.encodable := by
  cases l <;> rfl

@[simp] theorem evexImm8Row_encodable (ll : BitVec 2) (f : EvexImm8) :
    (evexImm8Row ll f).encodable = f.src.encodable := by
  cases ll using lengthField_cases <;> rfl

@[simp] theorem evexVecRow_encodable (ll : BitVec 2) (f : EvexVec) :
    (evexVecRow ll f).encodable = f.src.encodable := by
  cases ll using lengthField_cases <;> rfl

@[simp] theorem encode_vexRow (l : Bool) (f : VexImm8) : encode (vexRow l f) = encodeVex l f := by
  cases l <;> rfl

@[simp] theorem encode_evexImm8Row (ll : BitVec 2) (f : EvexImm8) :
    encode (evexImm8Row ll f) = encodeEvexImm8 ll f := by
  cases ll using lengthField_cases <;> rfl

@[simp] theorem encode_evexVecRow (ll : BitVec 2) (f : EvexVec) : encode (evexVecRow ll f) = encodeEvexVec ll f := by
  cases ll using lengthField_cases <;> rfl

theorem decodeBody_encode {i : Instr} (h : i.encodable = true) (rest : List Byte) :
    decodeBody (encode i ++ rest) = .instr i rest := by
  cases i using Instr.shapeCases with
  | vex l f =>
    rw [vexRow_encodable] at h
    rw [encode_vexRow, decodeBody_encodeVex l h]
  | imm8 ll f =>
    rw [evexImm8Row_encodable] at h
    rw [encode_evexImm8Row, decodeBody_encodeEvexImm8 ll h]
  | vec ll f =>
    rw [evexVecRow_encodable] at h
    rw [encode_evexVecRow, decodeBody_encodeEvexVec ll h]

/-- A byte string without legacy prefixes that is an instruction is decoded as one: `C4h` and `62h` are no prefixes. -/
theorem decode_of_decodeBody {bs rest : List Byte} {i : Instr} (h : decodeBody bs = .instr i rest) :
    decode bs = .instr i rest := by
  match bs with
  | b :: bs =>
    have hb : b = 0xC4#8 ∨ b = 0x62#8 := by
      by_contra hb
      rw [not_or] at hb
      simp [decodeBody, hb] at h
    obtain rfl | rfl := hb <;> exact h

/-- Settles O2: what R54 and R55 read in the bytes that the encoder writes is the instruction. -/
theorem decodeOfEncode : Obligations.DecodeOfEncode :=
  fun _ rest h => decode_of_decodeBody (decodeBody_encode h rest)

end Sys2Proof

/-! The masks of spec/opcode_table.json against the decoder (O4, O5), and the lengths of encodings (O1, O3). -/

namespace Sys2Proof

/-! ### The rows as masks (R39) -/

/-- A row whose first byte is fixed accepts a string byte by byte. -/
theorem accepts_cons {p m : Byte} {ps ms bs : List Byte} :
    (OpcodeRow.mk (p :: ps) (m :: ms)).accepts bs = true ↔
      ∃ b rest, bs = b :: rest ∧ b &&& m = p ∧ (OpcodeRow.mk ps ms).accepts rest = true := by
  cases bs <;> simp [OpcodeRow.accepts]

theorem accepts_nil (bs : List Byte) : (OpcodeRow.mk [] []).accepts bs = true := by
  simp [OpcodeRow.accepts]

theorem and_ff (b : Byte) : b &&& 0xFF#8 = b := BitVec.and_allOnes

theorem vexRow_row (l : Bool) (f : VexImm8) :
    (vexRow l f).row = ⟨[0xC4#8, 0x03#8, if l then 0x85#8 else 0x81#8, 0x01#8], [0xFF#8, 0x1F#8, 0x87#8, 0xFF#8]⟩ := by
  cases l <;> rfl

theorem evexImm8Row_row (ll : BitVec 2) (f : EvexImm8) :
    (evexImm8Row ll f).row = ⟨[0x62#8, 0x03#8, 0x81#8, ll.setWidth 8 <<< 5, 0x01#8],
      [0xFF#8, 0x03#8, 0x83#8, 0x60#8, 0xFF#8]⟩ := by
  cases ll using lengthField_cases <;> rfl

theorem evexVecRow_row (ll : BitVec 2) (f : EvexVec) :
    (evexVecRow ll f).row = ⟨[0x62#8, 0x02#8, 0x81#8, ll.setWidth 8 <<< 5, 0x16#8],
      [0xFF#8, 0x03#8, 0x83#8, 0x60#8, 0xFF#8]⟩ := by
  cases ll using lengthField_cases <;> rfl

/-- The masked bits of a VEX encoding are map, `pp`, `W` and `L`. -/
theorem vexMask_iff (p0 p1 : Byte) (l : Bool) :
    (p0 &&& 0x1F#8 = 0x03#8 ↔ p0.extractLsb' 0 5 = 0b00011#5) ∧
    ((p1 &&& 0x87#8 = if l then 0x85#8 else 0x81#8) ↔
      p1.extractLsb' 0 2 = 0b01#2 ∧ p1.getLsbD 7 = true ∧ p1.getLsbD 2 = l) := by
  constructor
  · revert p0; decide
  · revert l p1; decide

/-- The masked bits of an EVEX encoding are map, `pp`, `W` and `L'L`. -/
theorem evexMask_iff (p0 p1 p2 : Byte) (mm ll : BitVec 2) :
    (p0 &&& 0x03#8 = mm.setWidth 8 ↔ p0.extractLsb' 0 2 = mm) ∧
    (p1 &&& 0x83#8 = 0x81#8 ↔ p1.extractLsb' 0 2 = 0b01#2 ∧ p1.getLsbD 7 = true) ∧
    (p2 &&& 0x60#8 = ll.setWidth 8 <<< 5 ↔ p2.extractLsb' 5 2 = ll) := by
  refine ⟨?_, ?_, ?_⟩
  · revert mm p0; decide
  · revert p1; decide
  · revert ll p2; decide

theorem accepts_vexRow {l : Bool} {f : VexImm8} {bs : List Byte} :
    (vexRow l f).row.accepts bs = true ↔
      ∃ p0 p1 opcode rest, bs = 0xC4#8 :: p0 :: p1 :: opcode :: rest ∧ VexHead p0 p1 opcode ∧ p1.getLsbD 2 = l := by
  simp only [vexRow_row, accepts_cons, accepts_nil, and_ff]
  constructor
  · rintro ⟨_, _, rfl, rfl, p0, _, rfl, h0, p1, _, rfl, h1, opcode, rest, rfl, hc, -⟩
    obtain ⟨hmap, hpwl⟩ := vexMask_iff p0 p1 l
    obtain ⟨hp, hw, hl⟩ := hpwl.1 h1
    exact ⟨p0, p1, opcode, rest, rfl, ⟨hmap.1 h0, hp, hw, hc⟩, hl⟩
  · rintro ⟨p0, p1, opcode, rest, rfl, ⟨hm, hp, hw, hc⟩, hl⟩
    obtain ⟨hmap, hpwl⟩ := vexMask_iff p0 p1 l
    exact ⟨_, _, rfl, rfl, p0, _, rfl, hmap.2 hm, p1, _, rfl, hpwl.2 ⟨hp, hw, hl⟩, opcode, rest, rfl, hc, trivial⟩

/-- The EVEX rows' masks, for either map and opcode. -/
theorem accepts_evex {mm ll : BitVec 2} {code : Byte} {bs : List Byte} :
    (OpcodeRow.mk [0x62#8, mm.setWidth 8, 0x81#8, ll.setWidth 8 <<< 5, code]
      [0xFF#8, 0x03#8, 0x83#8, 0x60#8, 0xFF#8]).accepts bs = true ↔
      ∃ p0 p1 p2 opcode rest, bs = 0x62#8 :: p0 :: p1 :: p2 :: opcode :: rest ∧ EvexHead mm code p0 p1 opcode ∧
        p2.extractLsb' 5 2 = ll := by
  simp only [accepts_cons, accepts_nil, and_ff]
  constructor
  · rintro ⟨_, _, rfl, rfl, p0, _, rfl, h0, p1, _, rfl, h1, p2, _, rfl, h2, opcode, rest, rfl, hc, -⟩
    obtain ⟨hmap, hpw, hll⟩ := evexMask_iff p0 p1 p2 mm ll
    obtain ⟨hp, hw⟩ := hpw.1 h1
    exact ⟨p0, p1, p2, opcode, rest, rfl, ⟨hmap.1 h0, hp, hw, hc⟩, hll.1 h2⟩
  · rintro ⟨p0, p1, p2, opcode, rest, rfl, ⟨hm, hp, hw, hc⟩, hl⟩
    obtain ⟨hmap, hpw, hll⟩ := evexMask_iff p0 p1 p2 mm ll
    exact ⟨_, _, rfl, rfl, p0, _, rfl, hmap.2 hm, p1, _, rfl, hpw.2 ⟨hp, hw⟩, p2, _, rfl, hll.2 hl,
      opcode, rest, rfl, hc, trivial⟩

theorem accepts_evexImm8Row {ll : BitVec 2} {f : EvexImm8} {bs : List Byte} :
    (evexImm8Row ll f).row.accepts bs = true ↔
      ∃ p0 p1 p2 opcode rest, bs = 0x62#8 :: p0 :: p1 :: p2 :: opcode :: rest ∧
        EvexHead 0b11#2 0x01#8 p0 p1 opcode ∧ p2.extractLsb' 5 2 = ll := by
  rw [evexImm8Row_row]
  exact accepts_evex (mm := 0b11#2)

theorem accepts_evexVecRow {ll : BitVec 2} {f : EvexVec} {bs : List Byte} :
    (evexVecRow ll f).row.accepts bs = true ↔
      ∃ p0 p1 p2 opcode rest, bs = 0x62#8 :: p0 :: p1 :: p2 :: opcode :: rest ∧
        EvexHead 0b10#2 0x16#8 p0 p1 opcode ∧ p2.extractLsb' 5 2 = ll := by
  rw [evexVecRow_row]
  exact accepts_evex (mm := 0b10#2)

/-! ### What is decoded lies in its row (R54, R55) -/

theorem decodeVex_eq_instr {bs rest : List Byte} {i : Instr} (h : decodeVex bs = .instr i rest) :
    ∃ p0 p1 opcode bs' f, bs = p0 :: p1 :: opcode :: bs' ∧ VexHead p0 p1 opcode ∧ i = vexRow (p1.getLsbD 2) f := by
  match bs with
  | p0 :: p1 :: opcode :: bs =>
    simp only [decodeVex] at h
    split at h
    · rename_i hhead
      simp only [Bool.and_eq_true, beq_iff_eq] at hhead
      obtain ⟨⟨⟨hm, hp⟩, hc⟩, hw⟩ := hhead
      split at h <;> cases h
      exact ⟨p0, p1, opcode, bs, _, rfl, ⟨hm, hp, hw, hc⟩, rfl⟩
    · cases h

theorem decodeEvex_eq_instr {bs rest : List Byte} {i : Instr} (h : decodeEvex bs = .instr i rest) :
    ∃ p0 p1 p2 opcode bs', bs = p0 :: p1 :: p2 :: opcode :: bs' ∧
      ((EvexHead 0b11#2 0x01#8 p0 p1 opcode ∧ ∃ f, i = evexImm8Row (p2.extractLsb' 5 2) f) ∨
       (EvexHead 0b10#2 0x16#8 p0 p1 opcode ∧ ∃ f, i = evexVecRow (p2.extractLsb' 5 2) f)) := by
  match bs with
  | p0 :: p1 :: p2 :: opcode :: bs =>
    refine ⟨p0, p1, p2, opcode, bs, rfl, ?_⟩
    simp only [decodeEvex] at h
    split at h
    · rename_i hhead
      simp only [Bool.and_eq_true, Bool.or_eq_true, beq_iff_eq] at hhead
      obtain ⟨⟨hp, hw⟩, hform⟩ := hhead
      split at h
      · cases h
      · split at h
        · rename_i himm8
          simp only [Bool.and_eq_true, beq_iff_eq] at himm8
          obtain ⟨hm, hc⟩ := himm8
          split at h <;> cases h
          exact .inl ⟨⟨hm, hp, hw, hc⟩, _, rfl⟩
        · rename_i himm8
          simp only [Bool.and_eq_true, beq_iff_eq] at himm8
          obtain ⟨hm, hc⟩ := hform.resolve_left himm8
          cases h
          exact .inr ⟨⟨hm, hp, hw, hc⟩, _, rfl⟩
    · cases h

/-- The first byte tells VEX from EVEX. -/
theorem decodeBody_eq_instr {bs rest : List Byte} {i : Instr} (h : decodeBody bs = .instr i rest) :
    ∃ bs', (bs = 0xC4#8 :: bs' ∧ decodeVex bs' = .instr i rest) ∨
      (bs = 0x62#8 :: bs' ∧ decodeEvex bs' = .instr i rest) := by
  match bs with
  | b :: bs =>
    simp only [decodeBody, beq_iff_eq] at h
    split_ifs at h with hc4 h62
    · exact ⟨bs, .inl ⟨by rw [hc4], h⟩⟩
    · exact ⟨bs, .inr ⟨by rw [h62], h⟩⟩

/-- What is decoded stands behind no legacy prefixes. -/
theorem decodeBody_of_decode {bs rest : List Byte} {i : Instr} (h : decode bs = .instr i rest) :
    decodeBody bs = .instr i rest := by
  match bs with
  | b :: bs =>
    simp only [decode] at h
    split_ifs at h
    · exact absurd h (decodePrefixed_ne_instr _ _ _ _ _)
    · exact absurd h (decodePrefixed_ne_instr _ _ _ _ _)
    · exact h

theorem accepts_of_decode {bs rest : List Byte} {i : Instr} (h : decode bs = .instr i rest) :
    i.row.accepts bs = true := by
  obtain ⟨bs', ⟨rfl, hv⟩ | ⟨rfl, he⟩⟩ := decodeBody_eq_instr (decodeBody_of_decode h)
  · obtain ⟨p0, p1, opcode, bs', f, rfl, hhead, rfl⟩ := decodeVex_eq_instr hv
    exact accepts_vexRow.2 ⟨p0, p1, opcode, bs', rfl, hhead, rfl⟩
  · obtain ⟨p0, p1, p2, opcode, bs', rfl, ⟨hhead, f, rfl⟩ | ⟨hhead, f, rfl⟩⟩ := decodeEvex_eq_instr he
    · exact accepts_evexImm8Row.2 ⟨p0, p1, p2, opcode, bs', rfl, hhead, rfl⟩
    · exact accepts_evexVecRow.2 ⟨p0, p1, p2, opcode, bs', rfl, hhead, rfl⟩

/-! ### What a row accepts is decoded -/

theorem parseDisp32_isSome {bs : List Byte} (h : 4 ≤ bs.length) : (parseDisp32 bs).isSome = true := by
  match bs with
  | _ :: _ :: _ :: _ :: _ => rfl

theorem parseDisp_isSome (mod : BitVec 2) {bs : List Byte} (h : 4 ≤ bs.length) : (parseDisp mod bs).isSome = true := by
  match bs with
  | b :: bs =>
    unfold parseDisp
    split_ifs
    · rfl
    · rfl
    · rw [Option.isSome_map, parseDisp32_isSome h]

theorem parseSib_isSome (x b : Bool) (mod : BitVec 2) {bs : List Byte} (h : 5 ≤ bs.length) :
    (parseSib x b mod bs).isSome = true := by
  match bs with
  | s :: bs =>
    have hbs : 4 ≤ bs.length := Nat.le_of_succ_le_succ h
    simp only [parseSib]
    split_ifs
    · rw [Option.isSome_map, parseDisp32_isSome hbs]
    · rw [Option.isSome_map, parseDisp_isSome _ hbs]

/-- Six bytes are enough for ModRM, SIB and any displacement. -/
theorem parseRm_isSome (x b : Bool) {bs : List Byte} (h : 6 ≤ bs.length) : (parseRm x b bs).isSome = true := by
  match bs with
  | m :: bs =>
    have hbs : 5 ≤ bs.length := Nat.le_of_succ_le_succ h
    have hdisp : 4 ≤ bs.length := Nat.le_of_succ_le hbs
    simp only [parseRm]
    split_ifs
    · rfl
    · rw [Option.isSome_map, parseSib_isSome _ _ _ hbs]
    · rw [Option.isSome_map, parseDisp32_isSome hdisp]
    · rw [Option.isSome_map, parseDisp_isSome _ hdisp]

/-- Seven bytes leave at least one behind ModRM, SIB and displacement. -/
theorem parseRm_cons (x b : Bool) {bs : List Byte} (h : 7 ≤ bs.length) :
    ∃ reg o imm rest, parseRm x b bs = some (reg, o, imm :: rest) := by
  obtain ⟨⟨reg, o, r⟩, hrm⟩ := Option.isSome_iff_exists.1 (parseRm_isSome x b (Nat.le_of_succ_le h))
  have hlen : bs.length = 1 + o.length + r.length := (parseRm_append hrm []).2
  have := o.length_le
  match r with
  | [] => rw [List.length_nil] at hlen; omega
  | imm :: rest => exact ⟨reg, o, imm, rest, hrm⟩

theorem decode_of_accepts {j : Instr} {bs : List Byte} (hlen : 12 ≤ bs.length) (h : j.row.accepts bs = true) :
    ∃ i rest, decode bs = .instr i rest ∧ i.row = j.row := by
  cases j using Instr.shapeCases with
  | vex l f =>
    obtain ⟨p0, p1, opcode, bs, rfl, hhead, rfl⟩ := accepts_vexRow.1 h
    obtain ⟨reg, o, imm, rest, hrm⟩ := parseRm_cons (!p0.getLsbD 6) (!p0.getLsbD 5) (bs := bs)
      (by simp only [List.length_cons] at hlen; omega)
    exact ⟨_, rest, decode_of_decodeBody (decodeVex_of_head hhead hrm), by rw [vexRow_row, vexRow_row]⟩
  | imm8 ll f =>
    obtain ⟨p0, p1, p2, opcode, bs, rfl, hhead, rfl⟩ := accepts_evexImm8Row.1 h
    obtain ⟨reg, o, imm, rest, hrm⟩ := parseRm_cons (!p0.getLsbD 6) (!p0.getLsbD 5) (bs := bs)
      (by simp only [List.length_cons] at hlen; omega)
    exact ⟨_, rest, decode_of_decodeBody (decodeEvex_of_imm8Head hhead hrm), by rw [evexImm8Row_row, evexImm8Row_row]⟩
  | vec ll f =>
    obtain ⟨p0, p1, p2, opcode, bs, rfl, hhead, rfl⟩ := accepts_evexVecRow.1 h
    obtain ⟨reg, o, imm, rest, hrm⟩ := parseRm_cons (!p0.getLsbD 6) (!p0.getLsbD 5) (bs := bs)
      (by simp only [List.length_cons] at hlen; omega)
    exact ⟨_, imm :: rest, decode_of_decodeBody (decodeEvex_of_vecHead hhead hrm),
      by rw [evexVecRow_row, evexVecRow_row]⟩

/-- Settles O4: masks and decoder fix the same fields, and 12 bytes hold any encoding. -/
theorem decoderFollowsOpcodeTable : Obligations.DecoderFollowsOpcodeTable :=
  fun _ => ⟨fun _ _ h => accepts_of_decode h, fun _ hlen h => decode_of_accepts hlen h⟩

theorem accepts_append {j : Instr} {bs : List Byte} (h : j.row.accepts bs = true) (x : List Byte) :
    j.row.accepts (bs ++ x) = true := by
  cases j using Instr.shapeCases with
  | vex l f =>
    obtain ⟨p0, p1, opcode, rest, rfl, hhead⟩ := accepts_vexRow.1 h
    exact accepts_vexRow.2 ⟨p0, p1, opcode, rest ++ x, rfl, hhead⟩
  | imm8 ll f =>
    obtain ⟨p0, p1, p2, opcode, rest, rfl, hhead⟩ := accepts_evexImm8Row.1 h
    exact accepts_evexImm8Row.2 ⟨p0, p1, p2, opcode, rest ++ x, rfl, hhead⟩
  | vec ll f =>
    obtain ⟨p0, p1, p2, opcode, rest, rfl, hhead⟩ := accepts_evexVecRow.1 h
    exact accepts_evexVecRow.2 ⟨p0, p1, p2, opcode, rest ++ x, rfl, hhead⟩

/-- Settles O5: the bytes with 12 more behind them decode to one instruction, which has the row of each. -/
theorem opcodeRowsDoNotOverlap : Obligations.OpcodeRowsDoNotOverlap := by
  intro i j bs hi hj
  have hlen : 12 ≤ (bs ++ List.replicate 12 0#8).length := by simp
  obtain ⟨k, rest, hk, hki⟩ := decode_of_accepts hlen (accepts_append hi _)
  obtain ⟨k', rest', hk', hkj⟩ := decode_of_accepts hlen (accepts_append hj _)
  obtain ⟨rfl, -⟩ := Decoded.instr.inj (hk.symm.trans hk')
  exact hki.symm.trans hkj

/-! ### Lengths (R57) -/

theorem encodeDisp_length (d : Disp) : (encodeDisp d).length = d.length := by cases d <;> rfl

theorem encodeRm_length {w : Nat} (reg : BitVec 3) (o : RmOperand w) : (encodeRm reg o).length = 1 + o.length := by
  cases o with
  | reg => rfl
  | mem m =>
    cases m <;>
      simp only [encodeRm, List.length_cons, List.length_nil, encodeDisp32, encodeDisp_length, RmOperand.length,
        MemOperand.length] <;> omega

theorem encode_length (i : Instr) : (encode i).length = i.length := by
  cases i using Instr.shapeCases with
  | vex l f =>
    obtain ⟨p0, p1, hbytes, -⟩ := encodeVex_eq l f
    simp only [encode_vexRow, hbytes, vexRow_length, VexImm8.length, List.length_cons, List.length_append,
      encodeRm_length, List.length_nil]
    omega
  | imm8 ll f =>
    obtain ⟨p0, p1, p2, hbytes, -⟩ := encodeEvexImm8_eq ll f
    simp only [encode_evexImm8Row, hbytes, evexImm8Row_length, EvexImm8.length, List.length_cons, List.length_append,
      encodeRm_length, List.length_nil]
    omega
  | vec ll f =>
    obtain ⟨p0, p1, p2, hbytes, -⟩ := encodeEvexVec_eq ll f
    simp only [encode_evexVecRow, hbytes, evexVecRow_length, EvexVec.length, List.length_cons, encodeRm_length]
    omega

theorem VexImm8.length_bounds (f : VexImm8) : 6 ≤ f.length ∧ f.length ≤ 11 := by
  have := f.src.length_le
  rw [VexImm8.length]
  omega

theorem EvexImm8.length_bounds (f : EvexImm8) : 7 ≤ f.length ∧ f.length ≤ 12 := by
  have := f.src.length_le
  rw [EvexImm8.length]
  omega

theorem EvexVec.length_bounds (f : EvexVec) : 6 ≤ f.length ∧ f.length ≤ 11 := by
  have := f.src.length_le
  rw [EvexVec.length]
  omega

theorem Instr.length_le (i : Instr) : i.length ≤ 12 := by
  cases i using Instr.shapeCases with
  | vex l f => rw [vexRow_length]; exact f.length_bounds.2.trans (by decide)
  | imm8 ll f => rw [evexImm8Row_length]; exact f.length_bounds.2
  | vec ll f => rw [evexVecRow_length]; exact f.length_bounds.2.trans (by decide)

/-- An operand of the greatest length: a SIB byte and a 32-bit displacement (R44). -/
def longestOperand {w : Nat} : RmOperand w := .mem (.sibNoBase 0 0 0)

/-- Settles O3: the operand takes 0 to 5 bytes, a register 0 and a SIB byte with `disp32` 5. -/
theorem encodingHasLengthLen : Obligations.EncodingHasLengthLen := by
  refine ⟨fun i => ⟨encode_length i, i.length_le.trans (by decide)⟩, fun _ _ _ _ _ _ => ?_,
    fun f => ⟨rfl, f.length_bounds⟩, fun f => ⟨rfl, f.length_bounds.1, f.length_bounds.2, rfl⟩,
    fun f => ⟨rfl, f.length_bounds.1, f.length_bounds.2, rfl⟩, ?_, ?_, ?_⟩
  · exact ⟨rfl, rfl, rfl, rfl, rfl, rfl, rfl, rfl, rfl⟩
  · exact ⟨⟨0, .reg 0, 0, 15⟩, ⟨0, longestOperand, 0, 15⟩, rfl, rfl, rfl, rfl⟩
  · exact ⟨⟨0, .reg 0, 0, ⟨0, false, false, 0, true⟩, 15, true⟩,
      ⟨0, longestOperand, 0, ⟨0, false, false, 0, true⟩, 15, true⟩, rfl, rfl, rfl, rfl⟩
  · exact ⟨⟨0, 0, .reg 0, ⟨0, false, false, 0, true⟩⟩, ⟨0, 0, longestOperand, ⟨0, false, false, 0, true⟩⟩,
      rfl, rfl, rfl, rfl⟩

/-- Settles O1: the decoder, run on the seven byte strings. -/
theorem specWordsDecode : Obligations.SpecWordsDecode := by
  refine ⟨?_, ?_, ?_, ?_, ?_, ?_, ?_⟩ <;> decide
end Sys2Proof

/-! Encodings at `pc`: prefixes before them (O6, O7), their neighbours (O8), the step that runs them (O48), and the
checks that end a form before its operands (O9, O14, O21). -/

namespace Sys2Proof

/-! ### Legacy prefixes (R53) -/

theorem isUdPrefix_iff (b : Byte) :
    isUdPrefix b = true ↔
      b = 0xF0#8 ∨ b = 0x66#8 ∨ b = 0xF2#8 ∨ b = 0xF3#8 ∨ (0x40 ≤ b.toNat ∧ b.toNat ≤ 0x4F) := by
  revert b
  decide

theorem isOverridePrefix_iff (b : Byte) :
    isOverridePrefix b = true ↔ b ∈ [0x2E#8, 0x36#8, 0x3E#8, 0x26#8, 0x64#8, 0x65#8, 0x67#8] := by
  simp [isOverridePrefix, or_assoc]

theorem not_isOverridePrefix_of_isUdPrefix {b : Byte} (h : isUdPrefix b = true) : isOverridePrefix b = false := by
  revert b
  decide

/-- Prefixes are read off one by one, and whether one of them is an override is kept. -/
theorem decodePrefixed_append {ps : List Byte} (h : ∀ p ∈ ps, isUdPrefix p = true ∨ isOverridePrefix p = true)
    (override : Bool) (total : Nat) (bs : List Byte) :
    decodePrefixed override total (ps ++ bs) = decodePrefixed (override || ps.any isOverridePrefix) total bs := by
  induction ps generalizing override with
  | nil => simp
  | cons p ps ih =>
    obtain ⟨hp, hps⟩ := List.forall_mem_cons.1 h
    by_cases hud : isUdPrefix p = true
    · simp [decodePrefixed, hud, ih hps, not_isOverridePrefix_of_isUdPrefix hud]
    · simp [decodePrefixed, hud, ih hps, hp.resolve_left hud]

/-- An instruction that `decode` reads without prefixes is what stands behind them. -/
theorem decodePrefixed_of_decode {bs rest : List Byte} {i : Instr} (h : decode bs = .instr i rest) (override : Bool)
    (total : Nat) : decodePrefixed override total bs = behindPrefixes override total (.instr i rest) := by
  rw [← decodeBody_of_decode h]
  match bs with
  | b :: bs =>
    rw [decode] at h
    split_ifs at h with hud hov
    · exact absurd h (decodePrefixed_ne_instr _ _ _ _ _)
    · exact absurd h (decodePrefixed_ne_instr _ _ _ _ _)
    · rw [decodePrefixed, if_neg hud, if_neg hov]

theorem decode_prefix_cons {p : Byte} (h : isUdPrefix p = true ∨ isOverridePrefix p = true) (bs : List Byte) :
    decode (p :: bs) = decodePrefixed false (p :: bs).length (p :: bs) := by
  rw [decode, decodePrefixed]
  split_ifs with hud hov
  · rfl
  · rfl
  · exact absurd h (not_or.2 ⟨hud, hov⟩)

/-- An instruction behind prefixes: refused where one of them is an override, else `#UD`, with the number of bytes up
to the instruction's end. -/
theorem decode_prefixes_append {ps bs rest : List Byte} {i : Instr} (hne : ps ≠ [])
    (hps : ∀ p ∈ ps, isUdPrefix p = true ∨ isOverridePrefix p = true) (h : decode bs = .instr i rest) :
    decode (ps ++ bs) =
      if ps.any isOverridePrefix then .rejected .addressOverride else .ud (ps.length + i.length) := by
  have hstart : decode (ps ++ bs) = decodePrefixed false (ps ++ bs).length (ps ++ bs) := by
    obtain ⟨p, ps, rfl⟩ := List.exists_cons_of_ne_nil hne
    exact decode_prefix_cons (hps p List.mem_cons_self) (ps ++ bs)
  have hlen : (ps ++ bs).length - rest.length = ps.length + i.length := by
    rw [List.length_append, (decode_append h []).2]
    omega
  rw [hstart, decodePrefixed_append hps, decodePrefixed_of_decode h, behindPrefixes, hlen, Bool.false_or]

/-! ### Neighbours of the encodings (R52, R62) -/

theorem decodeVex_of_not_head {p0 p1 opcode : Byte} (h : ¬VexHead p0 p1 opcode) (rest : List Byte) :
    decodeVex (p0 :: p1 :: opcode :: rest) = .rejected .notVpermpd := by
  refine if_neg fun hhead => h ?_
  simp only [Bool.and_eq_true, beq_iff_eq] at hhead
  obtain ⟨⟨⟨hm, hp⟩, hc⟩, hw⟩ := hhead
  exact ⟨hm, hp, hw, hc⟩

theorem decodeEvex_of_not_head {p0 p1 p2 opcode : Byte} (himm8 : ¬EvexHead 0b11#2 0x01#8 p0 p1 opcode)
    (hvec : ¬EvexHead 0b10#2 0x16#8 p0 p1 opcode) (rest : List Byte) :
    decodeEvex (p0 :: p1 :: p2 :: opcode :: rest) = .rejected .notVpermpd := by
  refine if_neg fun hhead => ?_
  simp only [Bool.and_eq_true, Bool.or_eq_true, beq_iff_eq] at hhead
  obtain ⟨⟨hp, hw⟩, ⟨hm, hc⟩ | ⟨hm, hc⟩⟩ := hhead
  · exact himm8 ⟨hm, hp, hw, hc⟩
  · exact hvec ⟨hm, hp, hw, hc⟩

/-- A first byte that is not one of the prefixes and starts neither VEX nor EVEX (`C5h`, R52, among them). -/
theorem decode_of_other_first_byte {b : Byte} (hvex : b ≠ 0xC4#8) (hevex : b ≠ 0x62#8) (hud : ¬isUdPrefix b = true)
    (hov : ¬isOverridePrefix b = true) (rest : List Byte) : decode (b :: rest) = .rejected .notVpermpd := by
  rw [decode, if_neg hud, if_neg hov, decodeBody, if_neg (beq_iff_eq.not.2 hvex), if_neg (beq_iff_eq.not.2 hevex)]

end Sys2Proof

namespace Sys2Proof.Machine

/-! ### Steps over the bytes at `pc` (R72) -/

theorem step_of_mode64 {s : State} (hm : s.cfg.mode64 = true) : step s = runDecoded (decode (fetchBytes s)) s :=
  if_pos hm

theorem step_behind_prefixes {ps rest : List Byte} {i : Instr} {s : State} (hm : s.cfg.mode64 = true)
    (henc : i.encodable = true) (hne : ps ≠ []) (hps : ∀ p ∈ ps, isUdPrefix p = true ∨ isOverridePrefix p = true)
    (hf : fetchBytes s = ps ++ encode i ++ rest) :
    step s = runDecoded
      (if ps.any isOverridePrefix then .rejected .addressOverride else .ud (ps.length + i.length)) s := by
  rw [step_of_mode64 hm, hf, List.append_assoc, decode_prefixes_append hne hps (decodeOfEncode i rest henc)]

theorem step_behind_override {ps rest : List Byte} {i : Instr} {s : State} (hm : s.cfg.mode64 = true)
    (henc : i.encodable = true) (hps : ∀ p ∈ ps, isUdPrefix p = true ∨ isOverridePrefix p = true)
    (hov : ∃ p ∈ ps, isOverridePrefix p = true) (hf : fetchBytes s = ps ++ encode i ++ rest) :
    step s = .refused .addressOverride := by
  have ⟨p, hp, _⟩ := hov
  rw [step_behind_prefixes hm henc (List.ne_nil_of_mem hp) hps hf, if_pos (List.any_eq_true.2 hov)]
  rfl

/-- Settles O6: with no override among the prefixes they are `#UD`, and an override refuses. -/
theorem prefixesRaiseUdOrAreRefused : Obligations.PrefixesRaiseUdOrAreRefused := by
  intro ps i rest s hm henc hne hf
  refine ⟨fun hps hfetch => ?_, fun hps => ?_⟩
  · simp only [← isUdPrefix_iff] at hps
    have hov : ¬ps.any isOverridePrefix = true := by
      simpa using fun p hp => not_isOverridePrefix_of_isUdPrefix (hps p hp)
    rw [step_behind_prefixes hm henc hne (fun p hp => .inl (hps p hp)) hf, if_neg hov, runDecoded, if_pos hfetch,
      raiseUd]
  · simp only [← isOverridePrefix_iff] at hps
    obtain ⟨p, hp⟩ := List.exists_mem_of_ne_nil ps hne
    exact step_behind_override hm henc (fun p hp => .inr (hps p hp)) ⟨p, hp, hps p hp⟩ hf

/-- Settles O7: one override among the prefixes refuses. -/
theorem mixedPrefixesAreRefused : Obligations.MixedPrefixesAreRefused := by
  intro ps i rest s hm henc hf hps hov
  refine step_behind_override hm henc (fun p hp => ?_) ?_ hf
  · rw [isUdPrefix_iff, isOverridePrefix_iff]
    simpa only [or_assoc] using hps p hp
  · simpa only [isOverridePrefix_iff] using hov

theorem step_of_notVpermpd {s : State} (hm : s.cfg.mode64 = true)
    (h : decode (fetchBytes s) = .rejected .notVpermpd) : step s = .refused .notVpermpd := by
  rw [step_of_mode64 hm, h]
  rfl

/-- Settles O8: none of the three has a row's fixed fields. -/
theorem neighbouringEncodingsAreRefused : Obligations.NeighbouringEncodingsAreRefused := by
  refine fun s hm => ⟨fun p0 p1 opcode rest hf h => step_of_notVpermpd hm ?_,
    fun p0 p1 p2 opcode rest hf h => step_of_notVpermpd hm ?_,
    fun b rest hf hvex hevex hud hov => step_of_notVpermpd hm ?_⟩ <;> rw [hf]
  · refine decodeVex_of_not_head (fun hhead => ?_) rest
    obtain ⟨hmap, hpp, hw, hcode⟩ := hhead
    simp [-BitVec.getLsbD_eq_getElem, hmap, hpp, hw, hcode] at h
  · refine decodeEvex_of_not_head (fun hhead => ?_) (fun hhead => ?_) rest <;>
    · obtain ⟨hmap, hpp, hw, hcode⟩ := hhead
      simp [-BitVec.getLsbD_eq_getElem, hmap, hpp, hw, hcode] at h
  · rw [← isUdPrefix_iff] at hud
    rw [← isOverridePrefix_iff] at hov
    exact decode_of_other_first_byte hvex hevex hud hov rest

/-- An encoding that stands in memory at `pc` begins the fetch window, which no encoding exceeds. -/
theorem encode_prefix_fetchBytes {s : State} {i : Instr}
    (h : ∀ k, ∀ hk : k < (encode i).length, readByte s (s.pc + BitVec.ofNat 64 k) = (encode i)[k]'hk) :
    encode i <+: fetchBytes s := by
  refine List.prefix_iff_getElem?.2 fun k hk => ?_
  have hwindow : k < fetchWindow := by
    have := i.length_le
    rw [encode_length] at hk
    rw [fetchWindow]
    omega
  rw [fetchBytes_getElem? s hwindow, byteAddr, h k hk]

theorem fetchable_of_readable {s : State} {len : Nat}
    (h : ∀ k, k < len → memFault s (s.pc + BitVec.ofNat 64 k) 1 = none ∧
      touchesDevice s (s.pc + BitVec.ofNat 64 k) 1 = false) : fetchable s len = true := by
  refine List.all_eq_true.2 fun k hk => ?_
  obtain ⟨hf, hd⟩ := h k (List.mem_range.1 hk)
  simp [fetchableByte, byteAddr, hf, hd]

/-- Settles O48: the window begins with the encoding, which decodes to the instruction (O2). -/
theorem encodingAtPcRuns : Obligations.EncodingAtPcRuns := by
  intro s i hm henc hbytes hread
  obtain ⟨rest, hf⟩ := encode_prefix_fetchBytes hbytes
  rw [step_of_mode64 hm, ← hf, decodeOfEncode i rest henc, runDecoded, if_pos (fetchable_of_readable hread)]

/-! ### The checks before the operands (R51, R58) -/

/-- Settles O9: no state and no field is looked at. -/
theorem illegalRowsAlwaysRaiseUd : Obligations.IllegalRowsAlwaysRaiseUd :=
  fun _ => ⟨fun _ => rfl, fun _ => rfl, fun _ => rfl, fun _ => rfl, fun _ => rfl⟩

theorem afterChecks_of_not_mode64 {s : State} (hm : s.cfg.mode64 = false) (reserved usable : Bool) (k : Result) :
    afterChecks s reserved usable k = .refused .notMode64 := by
  simp [afterChecks, hm]

/-- Settles O21: 64-bit mode is the first check of the step and of every form. -/
theorem onlyMode64IsAdmitted : Obligations.OnlyMode64IsAdmitted := by
  refine fun s hm => ⟨by simp [step, hm], fun i w hw => ?_⟩
  cases i with
  | vpermpdVex256Imm8 | vpermpdEvex256Imm8 | vpermpdEvex512Imm8 | vpermpdEvex256Vec | vpermpdEvex512Vec =>
    exact afterChecks_of_not_mode64 hm _ _ _
  | illegalVex128Imm8 | illegalEvex128Imm8 | illegalEvex128Vec | illegalEvexLl11Imm8 | illegalEvexLl11Vec => cases hw

theorem afterChecks_of_reserved {s : State} (hm : s.cfg.mode64 = true) (usable : Bool) (k : Result) :
    afterChecks s true usable k = .fault (.ud s) := by
  simp [afterChecks, hm, raiseUd]

theorem runEvexImm8_of_reserved {s : State} {f : EvexImm8} (hm : s.cfg.mode64 = true)
    (hr : evexImm8Reserved f = true) (vl : VectorLength) (usable : Bool) :
    runEvexImm8 vl usable f s = .fault (.ud s) := by
  rw [runEvexImm8, hr, afterChecks_of_reserved hm]

theorem runEvexVec_of_reserved {s : State} {f : EvexVec} (hm : s.cfg.mode64 = true)
    (hr : evexVecReserved f = true) (vl : VectorLength) (usable : Bool) :
    runEvexVec vl usable f s = .fault (.ud s) := by
  rw [runEvexVec, hr, afterChecks_of_reserved hm]

theorem isReg_of_eq_reg {w : Nat} {o : RmOperand w} (h : ∃ n, o = .reg n) : o.isReg = true := by
  obtain ⟨n, rfl⟩ := h
  rfl

/-- The four conditions of R51 on the control fields that every EVEX form has. -/
theorem evexReserved_iff {c : EvexControl} {srcIsReg : Bool} :
    evexReserved c srcIsReg = true ↔
      (c.z = true ∧ c.aaa = 0#3) ∨ (c.b = true ∧ srcIsReg = true) ∨ c.p1Fixed = false ∨ c.p0Reserved ≠ 0#2 := by
  simp only [evexReserved, Bool.or_eq_true, Bool.and_eq_true, bne_iff_ne, beq_iff_eq, Bool.not_eq_true']
  tauto

/-- Settles O14: each of the conditions is among the reserved fields, which are tested in both lengths. -/
theorem reservedEvexFieldsRaiseUd : Obligations.ReservedEvexFieldsRaiseUd := by
  refine fun s hm => ⟨fun f => ⟨rfl, fun h => ?_⟩, fun f => ⟨rfl, fun h => ?_⟩⟩
  · have hr : evexImm8Reserved f = true := by
      obtain hv | hctl := h
      · simp [evexImm8Reserved, hv]
      · simp [evexImm8Reserved, evexReserved_iff.2 (hctl.imp_right (.imp_left (.imp_right isReg_of_eq_reg)))]
    exact ⟨runEvexImm8_of_reserved hm hr _ _, runEvexImm8_of_reserved hm hr _ _⟩
  · have hr : evexVecReserved f = true := evexReserved_iff.2 (h.imp_right (.imp_left (.imp_right isReg_of_eq_reg)))
    exact ⟨runEvexVec_of_reserved hm hr _ _, runEvexVec_of_reserved hm hr _ _⟩

end Sys2Proof.Machine

/-! The elements that the forms move: the permutation by immediate and the write mask as the source writes them (O35,
O36, O39), where an element of the destination comes from (O30, O31), the VEX form (O40, O46), and the step that runs
a form (O47). -/

namespace Sys2Proof.Machine

/-! ### The permutation and the write mask (R63, R64, R73) -/

/-- Element `c` of the 256-bit window from element `k` up, as the source reads it: shifted down, the low 64 bits. -/
theorem window_shift_eq_qword (t : Zmm) (k : Nat) (c : BitVec 2) :
    ((t.extractLsb' (64 * k) 256) >>> (c.toNat * 64)).extractLsb' 0 64 = qword t (k + c.toNat) := by
  refine BitVec.eq_of_getLsbD_eq fun b hb => ?_
  have hwindow : c.toNat * 64 + b < 256 := by
    have hc := c.isLt
    omega
  simp only [qword, BitVec.getLsbD_extractLsb', BitVec.getLsbD_ushiftRight, hb, Nat.zero_add, hwindow, decide_true,
    Bool.true_and]
  congr 1
  ring

/-- An element of the low half, `PermImm`'s line for it. -/
theorem qword_permImm_low (vl : VectorLength) (t : Zmm) (imm : Byte) {j : Nat} (hj : j < 4) :
    qword (permImm vl t imm) j =
      ((t.extractLsb' 0 256) >>> ((imm.extractLsb' (2 * j) 2).toNat * 64)).extractLsb' 0 64 := by
  have hkl : j < kl vl := by cases vl <;> simp only [kl] <;> omega
  have hline := window_shift_eq_qword t 0 (imm.extractLsb' (2 * j) 2)
  rw [Nat.zero_add] at hline
  rw [qword_permImm t imm hkl, permImm_index_low imm hj]
  exact hline.symm

/-- An element of the high half, `PermImm`'s line for it. -/
theorem qword_permImm_high (t : Zmm) (imm : Byte) {j : Nat} (hj : j < 4) :
    qword (permImm .vl512 t imm) (4 + j) =
      ((t.extractLsb' 256 256) >>> ((imm.extractLsb' (2 * j) 2).toNat * 64)).extractLsb' 0 64 := by
  have hkl : 4 + j < kl .vl512 := Nat.add_lt_add_left hj 4
  rw [qword_permImm t imm hkl, permImm_index_high imm hj]
  exact (window_shift_eq_qword t 4 _).symm

/-- Settles O35: four lines of the low half, at either length, and four of the high half. -/
theorem permImmIsTheSourcesEightLines : Obligations.PermImmIsTheSourcesEightLines := by
  intro t imm
  refine ⟨fun vl => ⟨?_, ?_, ?_, ?_⟩, ?_, ?_, ?_, ?_⟩
  · exact qword_permImm_low vl t imm (j := 0) (by decide)
  · exact qword_permImm_low vl t imm (j := 1) (by decide)
  · exact qword_permImm_low vl t imm (j := 2) (by decide)
  · exact qword_permImm_low vl t imm (j := 3) (by decide)
  · exact qword_permImm_high t imm (j := 0) (by decide)
  · exact qword_permImm_high t imm (j := 1) (by decide)
  · exact qword_permImm_high t imm (j := 2) (by decide)
  · exact qword_permImm_high t imm (j := 3) (by decide)

/-- A bit lies below `VL` when its element lies below `KL`. -/
theorem div_lt_kl_iff {vl : VectorLength} {b : Nat} : b / 64 < kl vl ↔ b < vlBits vl := by
  rw [vlBits_eq]
  omega

/-- A bit below `VL` of the masked value is that bit of the new value, of 0 or of the old value. -/
theorem getLsbD_applyMask {vl : VectorLength} (old tmp : Zmm) (usemask : Bool) (kval : BitVec 64) (z : Bool) {b : Nat}
    (hb : b < vlBits vl) :
    (applyMask vl old tmp usemask kval z).getLsbD b =
      if !usemask || kval.getLsbD (b / 64) then tmp.getLsbD b else if z then false else old.getLsbD b := by
  rw [getLsbD_eq_qword, qword_applyMask _ _ _ _ _ (div_lt_kl_iff.2 hb)]
  split_ifs
  · rw [← getLsbD_eq_qword]
  · rw [BitVec.getLsbD_zero]
  · rw [← getLsbD_eq_qword]

theorem getLsbD_applyMask_ge {vl : VectorLength} (old tmp : Zmm) (usemask : Bool) (kval : BitVec 64) (z : Bool)
    {b : Nat} (hb : vlBits vl ≤ b) : (applyMask vl old tmp usemask kval z).getLsbD b = false := by
  have hj : kl vl ≤ b / 64 := Nat.le_of_not_lt fun h => Nat.not_lt.2 hb (div_lt_kl_iff.1 h)
  rw [getLsbD_eq_qword, qword_applyMask_ge _ _ _ _ _ hj, BitVec.getLsbD_zero]

/-- Settles O36: the element's mask bit picks the branch of `getLsbD_applyMask`. -/
theorem applyMaskBitByBit : Obligations.ApplyMaskBitByBit := by
  refine fun vl old tmp usemask kval z b _ => ⟨fun hb => ?_, getLsbD_applyMask_ge old tmp usemask kval z⟩
  rw [getLsbD_applyMask old tmp usemask kval z hb]
  refine ⟨fun hwritten => if_pos ?_, fun hu hk hz => ?_, fun hu hk hz => ?_⟩
  · simpa only [Bool.or_eq_true, Bool.not_eq_true'] using hwritten
  · simp [hu, hk, hz]
  · simp [hu, hk, hz]

/-- With four equal fields the immediate gives every position the same index. -/
theorem immIndex_of_equal_fields (c : BitVec 2) (j : Nat) : immIndex (c ++ c ++ c ++ c) j = c.toNat := by
  have key : ∀ (c : BitVec 2) (p : Fin 4), (c ++ c ++ c ++ c).extractLsb' (2 * p.val) 2 = c := by decide
  exact congrArg BitVec.toNat (key c ⟨j % 4, Nat.mod_lt j (by decide)⟩)

/-- An index element that is a number below `KL` is the index. -/
theorem vecIndex_of_eq_ofNat {vl : VectorLength} {idx : Zmm} {j e : Nat} (he : e < kl vl)
    (h : qword idx j = BitVec.ofNat 64 e) : vecIndex vl idx j = e := by
  have hbits : kl vl = 2 ^ indexBits vl := by cases vl <;> rfl
  have h64 : e < 2 ^ 64 := (he.trans_le (kl_le vl)).trans (by decide)
  rw [vecIndex, h, BitVec.extractLsb'_toNat, Nat.shiftRight_zero, BitVec.toNat_ofNat, Nat.mod_eq_of_lt h64, ← hbits,
    Nat.mod_eq_of_lt he]

/-- Settles O39: every position selects by the same index. -/
theorem oneElementCanGoToEveryPosition : Obligations.OneElementCanGoToEveryPosition := by
  refine fun vl t c idx e => ⟨fun j hj => ?_, fun he hidx j hj => ?_⟩
  · rw [qword_permImm t _ hj, immIndex_of_equal_fields]
  · rw [qword_permVec idx t hj, vecIndex_of_eq_ofNat he (hidx j hj)]

/-! ### Where an element of the destination comes from (R66, R67) -/

theorem maskedElem_of_written {s : State} {aaa : BitVec 3} {j : Nat} (h : aaa = 0#3 ∨ (readK s aaa).getLsbD j = true)
    (z : Bool) (old new : Qword) : maskedElem s aaa z j old new = new := if_pos h

/-- Settles O30: the written element is the source's element `selector s i j`. -/
theorem elementsAreMovedUnchanged : Obligations.ElementsAreMovedUnchanged := by
  intro i s t w hw hx j hj
  rw [eq_nextState_of_exec hw hx, qword_nextState_dest hj rfl]
  refine ⟨fun hwritten => ⟨selector s i j, selector_lt hw hj, maskedElem_of_written hwritten _ _ _⟩,
    fun ha hk hz => ?_, fun ha hk hz => ?_⟩
  · rw [maskedElem_of_clear ha hk, hz, if_neg Bool.false_ne_true]
  · rw [maskedElem_of_clear ha hk, hz, if_pos rfl]

section RegisterSource

variable {s : State}

/-- A register source is read for its value alone. -/
theorem loadSrc_reg_congr {c n : BitVec 5} (h : readV s c = readV s n) (vl : VectorLength) (b : Bool)
    (len scale : Nat) : loadSrc s vl b len scale (.reg c) = loadSrc s vl b len scale (.reg n) := by
  rw [loadSrc, loadSrc, h]

/-- The VEX form with another source register of the same value. -/
theorem execVpermpdVex256Imm8_reg_congr {f : VexImm8} {c n : BitVec 4} (hsrc : f.src = .reg n)
    (h : readV s (vexReg c) = readV s (vexReg n)) :
    execVpermpdVex256Imm8 { f with src := .reg c } s = execVpermpdVex256Imm8 f s := by
  obtain ⟨d, src, imm, v⟩ := f
  cases hsrc
  simp only [execVpermpdVex256Imm8, RmOperand.mapReg, loadSrc_reg_congr h]
  rfl

/-- An EVEX imm8 form with another source register of the same value. -/
theorem runEvexImm8_reg_congr {f : EvexImm8} {c n : BitVec 5} (hsrc : f.src = .reg n) (h : readV s c = readV s n)
    (vl : VectorLength) (usable : Bool) :
    runEvexImm8 vl usable { f with src := .reg c } s = runEvexImm8 vl usable f s := by
  obtain ⟨d, src, imm, ctl, v, v'⟩ := f
  cases hsrc
  simp only [runEvexImm8, loadSrc_reg_congr h]
  rfl

/-- An EVEX vector-control form with other data and index registers of the same values. -/
theorem runEvexVec_reg_congr {f : EvexVec} {c c' n : BitVec 5} (hsrc : f.src = .reg n) (h : readV s c = readV s n)
    (hidx : readV s c' = readV s f.idx) (vl : VectorLength) (usable : Bool) :
    runEvexVec vl usable { f with src := .reg c, idx := c' } s = runEvexVec vl usable f s := by
  obtain ⟨d, idx, src, ctl⟩ := f
  cases hsrc
  simp only [runEvexVec, loadSrc_reg_congr h, hidx]
  rfl

end RegisterSource

/-- Settles O31: a form reads of its source and index registers their values, wherever the destination is. -/
theorem readsPrecedeTheWrite : Obligations.ReadsPrecedeTheWrite := by
  refine ⟨fun f c n s t hsrc _ hc hx => ?_, fun f c n s t hsrc _ hc => ⟨fun hx => ?_, fun hx => ?_⟩,
    fun f c c' n s t hsrc _ _ hc hc' => ⟨fun hx => ?_, fun hx => ?_⟩⟩
  · exact (execVpermpdVex256Imm8_reg_congr hsrc hc).trans hx
  · exact (runEvexImm8_reg_congr hsrc hc _ _).trans hx
  · exact (runEvexImm8_reg_congr hsrc hc _ _).trans hx
  · exact (runEvexVec_reg_congr hsrc hc hc' _ _).trans hx
  · exact (runEvexVec_reg_congr hsrc hc hc' _ _).trans hx

/-! ### The VEX form (R69) -/

theorem checked_vexImm8 {f : VexImm8} {s : State} (hm : s.cfg.mode64 = true) (hv : f.vvvv = 0b1111#4)
    (havx2 : s.cfg.hasAvx2 = true) (hos : s.cfg.osAvx = true) (ht : s.cfg.taskSwitched = false) :
    Checked (.vpermpdVex256Imm8 f) s :=
  ⟨hm, beq_iff_eq.2 hv, ⟨havx2, hos⟩, ht⟩

/-- Without a write mask, element `j` of the completed destination is the source element that goes there. -/
theorem qword_nextState_dest_of_noMask {i : Instr} {s : State} {w : FormView} {j e : Nat} (ha : w.aaa = 0#3)
    (hj : j < kl w.vl) (he : selector s i j = e) :
    qword (readV (nextState s i w) w.dest) j = sourceElem s i.length w.scale w.bcast w.src e := by
  rw [readV_nextState_dest, qword_newDest hj, newElem_of_noMask ha, he]

/-- Settles O40: `nextState`, with the immediate's selector below 4 and no mask. -/
theorem vex256Imm8Completes : Obligations.Vex256Imm8Completes := by
  intro f s hm hv havx2 hos ht hr
  have hc := checked_vexImm8 hm hv havx2 hos ht
  exact ⟨_, exec_completes hc rfl hr, rfl,
    fun j hj => qword_nextState_dest_of_noMask rfl hj (permImm_index_low f.imm hj),
    fun j hj => qword_nextState_dest_ge hj, onlyWrites_nextState s _ _⟩

/-- Forms with the same destination and the same new value leave the same vector registers. -/
theorem readV_nextState_congr {s : State} {i i' : Instr} {w w' : FormView} (hd : w'.dest = w.dest)
    (hx : newDest s i' w' = newDest s i w) (r : BitVec 5) :
    readV (nextState s i' w') r = readV (nextState s i w) r := by
  rw [nextState, nextState, readV_writePc, readV_writePc, hd, hx]

/-- Settles O46: the EVEX form has passed the checks that the VEX form makes besides `AVX2` and `OS_AVX`, and a
register's elements depend neither on the length nor on the scale. -/
theorem vexFormIsTheUnmaskedEvex256Form : Obligations.VexFormIsTheUnmaskedEvex256Form := by
  rintro d n imm s t f rfl havx2 hos hx
  obtain ⟨w, hw, hc, -, rfl⟩ := exec_next_iff.1 hx
  cases hw
  have hvex := checked_vexImm8 (f := ⟨d, .reg n, imm, 15⟩) hc.mode64 rfl havx2 hos hc.notSwitched
  exact ⟨_, exec_completes hvex rfl trivial, readV_nextState_congr rfl rfl⟩

/-! ### The step (R72) -/

/-- Settles O47: in 64-bit mode `step` runs what it has decoded. -/
theorem stepRunsTheDecodedInstruction : Obligations.StepRunsTheDecodedInstruction := by
  intro s i rest hm hd hf
  rw [step_of_mode64 hm, hd, runDecoded, if_pos hf]

end Sys2Proof.Machine

/-! The permutation by an index vector: the source's lines for it (O37), and the bits of the index vector that it looks
at (O38). -/

namespace Sys2Proof.Machine

/-! ### `PermVec` as the source writes it (R73) -/

/-- Element `c` of the whole vector, as the source reads it: shifted down, the low 64 bits. -/
theorem shift_eq_qword (t : Zmm) (c : Nat) : (t >>> (c * 64)).extractLsb' 0 64 = qword t c := by
  refine BitVec.eq_of_getLsbD_eq fun b hb => ?_
  simp only [qword, BitVec.getLsbD_extractLsb', BitVec.getLsbD_ushiftRight, hb, Nat.zero_add, Nat.mul_comm]

/-- An element of `PermVec`, with the index bits read straight from the index vector. -/
theorem qword_permVec_extractLsb' {vl : VectorLength} (idx t : Zmm) {j : Nat} (hj : j < kl vl) :
    qword (permVec vl idx t) j = qword t (idx.extractLsb' (64 * j) (indexBits vl)).toNat := by
  rw [qword_permVec idx t hj, vecIndex_eq_extractLsb']

/-- Settles O37: two index bits stay within the low 256-bit window, three range over the whole vector. -/
theorem permVecIsTheSourcesLines : Obligations.PermVecIsTheSourcesLines := by
  refine fun idx t => ⟨fun j hj => ?_, fun j hj => ?_⟩
  · have hline := window_shift_eq_qword t 0 (idx.extractLsb' (64 * j) 2)
    rw [Nat.zero_add] at hline
    exact (qword_permVec_extractLsb' (vl := .vl256) idx t hj).trans hline.symm
  · exact (qword_permVec_extractLsb' (vl := .vl512) idx t hj).trans (shift_eq_qword t _).symm

/-! ### The index bits that are looked at (R76) -/

/-- `PermVec` looks at its index vector through the index of each element below `KL` alone. -/
theorem permVec_congr {vl : VectorLength} {idx idx' : Zmm} (t : Zmm)
    (h : ∀ j, j < kl vl → vecIndex vl idx' j = vecIndex vl idx j) : permVec vl idx' t = permVec vl idx t := by
  refine congrArg ofElems (funext fun j => ?_)
  split_ifs with hj
  · rw [h j hj]
  · rfl

/-- Settles O38: the index of an element is its low bits, and the number of them keeps it below `KL`. -/
theorem indexBitsAboveTheLowOnesAreIgnored : Obligations.IndexBitsAboveTheLowOnesAreIgnored := by
  refine fun t idx idx' => ⟨fun h => ?_, fun h => ?_, fun vl j => vecIndex_lt vl idx j⟩
  · exact permVec_congr (vl := .vl256) t fun j hj => congrArg BitVec.toNat (h j hj)
  · exact permVec_congr (vl := .vl512) t fun j hj => congrArg BitVec.toNat (h j hj)

end Sys2Proof.Machine

/-! Exceptions: the order of a form's checks and what each of them raises (O15, O16), the reserved values in the bytes
at `pc` (O10, O11, O12, O13), and what a fault carries (O18, O19). -/

namespace Sys2Proof.Machine

/-! ### What each check raises (R82, R86) -/

theorem afterChecks_of_not_usable {s : State} (hm : s.cfg.mode64 = true) (reserved : Bool) (k : Result) :
    afterChecks s reserved false k = .fault (.ud s) := by
  cases reserved <;> simp [afterChecks, hm, raiseUd]

theorem afterChecks_of_taskSwitched {s : State} (hm : s.cfg.mode64 = true) (ht : s.cfg.taskSwitched = true)
    (k : Result) : afterChecks s false true k = .fault (.nm s) := by
  simp [afterChecks, hm, ht, raiseNm]

theorem avx2Usable_iff {c : Config} : avx2Usable c = true ↔ c.hasAvx2 = true ∧ c.osAvx = true := by
  rw [avx2Usable, Bool.and_eq_true]

/-- In 64-bit mode every instruction makes the checks of R86, about its own validity and its own row; an illegal row
fails the first. -/
theorem exec_eq_afterChecks {s : State} (hm : s.cfg.mode64 = true) (i : Instr) :
    ∃ usable k, (usable = true ↔ Usable s.cfg i) ∧ exec i s = afterChecks s (!i.valid) usable k := by
  cases i with
  | vpermpdVex256Imm8 f => exact ⟨_, _, avx2Usable_iff, congrArg (afterChecks s · _ _) (vexReserved_eq f)⟩
  | vpermpdEvex256Imm8 f => exact ⟨_, _, avx512vlUsable_iff, congrArg (afterChecks s · _ _) (evexImm8Reserved_eq f)⟩
  | vpermpdEvex512Imm8 f => exact ⟨_, _, avx512fUsable_iff, congrArg (afterChecks s · _ _) (evexImm8Reserved_eq f)⟩
  | vpermpdEvex256Vec f => exact ⟨_, _, avx512vlUsable_iff, congrArg (afterChecks s · _ _) (evexVecReserved_eq f)⟩
  | vpermpdEvex512Vec f => exact ⟨_, _, avx512fUsable_iff, congrArg (afterChecks s · _ _) (evexVecReserved_eq f)⟩
  | illegalVex128Imm8 | illegalEvex128Imm8 | illegalEvex128Vec | illegalEvexLl11Imm8 | illegalEvexLl11Vec =>
    exact ⟨false, raiseUd s, ⟨fun h => absurd h Bool.false_ne_true, False.elim⟩,
      (afterChecks_of_reserved hm false _).symm⟩

section Checks

variable {i : Instr} {s : State}

theorem exec_of_invalid (hm : s.cfg.mode64 = true) (hv : i.valid = false) : exec i s = .fault (.ud s) := by
  obtain ⟨usable, k, -, hx⟩ := exec_eq_afterChecks hm i
  rw [hx, hv]
  exact afterChecks_of_reserved hm usable k

theorem exec_of_not_usable (hm : s.cfg.mode64 = true) (hu : ¬Usable s.cfg i) : exec i s = .fault (.ud s) := by
  obtain ⟨usable, k, husable, hx⟩ := exec_eq_afterChecks hm i
  rw [hx, Bool.eq_false_iff.2 (husable.not.2 hu)]
  exact afterChecks_of_not_usable hm _ k

theorem exec_of_taskSwitched (hm : s.cfg.mode64 = true) (hv : i.valid = true) (hu : Usable s.cfg i)
    (ht : s.cfg.taskSwitched = true) : exec i s = .fault (.nm s) := by
  obtain ⟨usable, k, husable, hx⟩ := exec_eq_afterChecks hm i
  rw [hx, hv, husable.2 hu]
  exact afterChecks_of_taskSwitched hm ht k

/-- Only the five forms are usable on any machine, and they have operands. -/
theorem viewOf_of_usable {c : Config} (hu : Usable c i) : ∃ w, viewOf i = some w := by
  cases i with
  | vpermpdVex256Imm8 | vpermpdEvex256Imm8 | vpermpdEvex512Imm8 | vpermpdEvex256Vec | vpermpdEvex512Vec =>
    exact ⟨_, rfl⟩
  | illegalVex128Imm8 | illegalEvex128Imm8 | illegalEvex128Vec | illegalEvexLl11Imm8 | illegalEvexLl11Vec =>
    exact hu.elim

/-- Past its checks a form completes, raises what `MemFault` reports, or is refused for a device (R33, R34). -/
theorem exec_cases_of_checked {w : FormView} (hc : Checked i s) (hw : viewOf i = some w) :
    exec i s = .next (nextState s i w) ∨ (∃ e, exec i s = .fault (.mem e s)) ∨ exec i s = .refused .deviceMemory := by
  cases hsrc : w.src with
  | reg n => exact .inl (exec_completes hc hw (by rw [hsrc]; trivial))
  | mem m =>
    cases hf : memFault s (effAddr s i.length w.scale m) w.bytes with
    | some e => exact .inr (.inl ⟨e, exec_memFault hc hw hsrc hf⟩)
    | none =>
      cases hd : touchesDevice s (effAddr s i.length w.scale m) w.bytes with
      | true => exact .inr (.inr (exec_device hc hw hsrc hf hd))
      | false => exact .inl (exec_completes hc hw (by rw [hsrc]; exact ⟨hf, hd⟩))

/-- In 64-bit mode `#UD` is raised for a reserved value and for a row that is not usable, and for nothing else. -/
theorem exec_eq_ud_iff (hm : s.cfg.mode64 = true) :
    exec i s = .fault (.ud s) ↔ i.valid = false ∨ ¬Usable s.cfg i := by
  refine ⟨fun hx => ?_, fun h => h.elim (exec_of_invalid hm) (exec_of_not_usable hm)⟩
  by_contra h
  obtain ⟨hv, hu⟩ := not_or.1 h
  rw [Bool.not_eq_false] at hv
  rw [not_not] at hu
  cases ht : s.cfg.taskSwitched with
  | true => cases hx.symm.trans (exec_of_taskSwitched hm hv hu ht)
  | false =>
    obtain ⟨w, hw⟩ := viewOf_of_usable hu
    obtain hnext | ⟨e, hmem⟩ | hdevice := exec_cases_of_checked ⟨hm, hv, hu, ht⟩ hw
    · cases hx.symm.trans hnext
    · cases hx.symm.trans hmem
    · cases hx.symm.trans hdevice

/-- A form that raises is run in 64-bit mode (R58). -/
theorem mode64_of_exec_fault {w : FormView} {x : Fault} (hw : viewOf i = some w) (hx : exec i s = .fault x) :
    s.cfg.mode64 = true := by
  by_contra hm
  cases hx.symm.trans ((onlyMode64IsAdmitted s (Bool.eq_false_iff.2 hm)).2 i w hw)

end Checks

/-- Settles O15: each row needs every flag of `Usable`, and with all of them `CR0.TS` is the next check. -/
theorem missingFeatureRaisesUd : Obligations.MissingFeatureRaisesUd := by
  intro i s hm hv
  refine ⟨?_, ?_, ?_, ?_, ?_, exec_of_taskSwitched hm hv⟩
  all_goals
    rintro f rfl hmissing
    refine exec_of_not_usable hm fun hu => ?_
    simp only [Usable] at hu
    simp [hu] at hmissing

/-- Settles O16: a prefix is `#UD` at decode, and past the checks the source's read is all that can raise. -/
theorem checksAreMadeInOrder : Obligations.ChecksAreMadeInOrder := by
  refine fun i s hm => ⟨fun n hd hf => ?_, exec_of_invalid hm, fun _ => exec_of_not_usable hm,
    exec_of_taskSwitched hm, fun hv hu ht w hw => ?_⟩
  · rw [step_of_mode64 hm, hd, runDecoded, if_pos hf, raiseUd]
  · have hc : Checked i s := ⟨hm, hv, hu, ht⟩
    refine ⟨fun m e hsrc hf => exec_memFault hc hw hsrc hf, fun hr x hx => ?_⟩
    cases hx.symm.trans (exec_completes hc hw hr)

/-! ### Reserved values in the bytes at `pc` (R77 to R80) -/

theorem fetchBytes_length (s : State) : (fetchBytes s).length = 15 := by
  rw [fetchBytes, List.length_map, List.length_range, fetchWindow]

theorem fetchable_mono {s : State} {m n : Nat} (hmn : m ≤ n) (h : fetchable s n = true) : fetchable s m = true := by
  rw [fetchable, List.all_eq_true] at h ⊢
  exact fun k hk => h k (List.mem_range.2 ((List.mem_range.1 hk).trans_le hmn))

section Bytes

variable {s : State} {p0 p1 p2 opcode : Byte} {bs : List Byte}

/-- No instruction is longer than the fetch window. -/
theorem step_of_decodeBody {i : Instr} {rest : List Byte} (hm : s.cfg.mode64 = true) (hf : fetchable s 15 = true)
    (hb : fetchBytes s = bs) (hd : decodeBody bs = .instr i rest) : step s = exec i s :=
  stepRunsTheDecodedInstruction s i rest hm (hb ▸ decode_of_decodeBody hd)
    (fetchable_mono (i.length_le.trans (by decide)) hf)

/-- Behind a prefix and an opcode of at most five bytes, the fetch window has room for ModRM, SIB, displacement and one
more byte. -/
theorem parseRm_of_fetchBytes {head : List Byte} (hb : fetchBytes s = head ++ bs) (hh : head.length ≤ 5)
    (x b : Bool) : ∃ reg o imm rest, parseRm x b bs = some (reg, o, imm :: rest) := by
  have hlen := fetchBytes_length s
  rw [hb, List.length_append] at hlen
  exact parseRm_cons x b (by omega)

/-- The VEX bytes of VPERMPD at `pc` run as the row that `L` selects, with the `vvvv` bits stored in them. -/
theorem step_of_vexHead (hm : s.cfg.mode64 = true) (hf : fetchable s 15 = true)
    (hb : fetchBytes s = 0xC4#8 :: p0 :: p1 :: opcode :: bs) (h : VexHead p0 p1 opcode) :
    ∃ f : VexImm8, f.vvvv = p1.extractLsb' 3 4 ∧ step s = exec (vexRow (p1.getLsbD 2) f) s := by
  obtain ⟨reg, o, imm, rest, hrm⟩ := parseRm_of_fetchBytes (head := [0xC4#8, p0, p1, opcode]) hb (by simp)
    (!p0.getLsbD 6) (!p0.getLsbD 5)
  exact ⟨vexImm8Of p0 p1 reg o imm, rfl, step_of_decodeBody hm hf hb (decodeVex_of_head h hrm)⟩

/-- The EVEX imm8 bytes of VPERMPD at `pc` run as the row that `L'L` selects, with the `vvvv` bits stored in them. -/
theorem step_of_evexImm8Head (hm : s.cfg.mode64 = true) (hf : fetchable s 15 = true)
    (hb : fetchBytes s = 0x62#8 :: p0 :: p1 :: p2 :: opcode :: bs) (h : EvexHead 0b11#2 0x01#8 p0 p1 opcode) :
    ∃ f : EvexImm8, f.vvvv = p1.extractLsb' 3 4 ∧ step s = exec (evexImm8Row (p2.extractLsb' 5 2) f) s := by
  obtain ⟨reg, o, imm, rest, hrm⟩ := parseRm_of_fetchBytes (head := [0x62#8, p0, p1, p2, opcode]) hb (by simp)
    (!p0.getLsbD 6) (!p0.getLsbD 5)
  exact ⟨evexImm8Of p0 p1 p2 reg o imm, rfl, step_of_decodeBody hm hf hb (decodeEvex_of_imm8Head h hrm)⟩

/-- The EVEX vector-control bytes of VPERMPD at `pc` run as the row that `L'L` selects. -/
theorem step_of_evexVecHead (hm : s.cfg.mode64 = true) (hf : fetchable s 15 = true)
    (hb : fetchBytes s = 0x62#8 :: p0 :: p1 :: p2 :: opcode :: bs) (h : EvexHead 0b10#2 0x16#8 p0 p1 opcode) :
    ∃ f : EvexVec, step s = exec (evexVecRow (p2.extractLsb' 5 2) f) s := by
  obtain ⟨reg, o, imm, rest, hrm⟩ := parseRm_of_fetchBytes (head := [0x62#8, p0, p1, p2, opcode]) hb (by simp)
    (!p0.getLsbD 6) (!p0.getLsbD 5)
  exact ⟨evexVecOf p0 p1 p2 reg o, step_of_decodeBody hm hf hb (decodeEvex_of_vecHead h hrm)⟩

end Bytes

/-- A VEX row is invalid with `vvvv` not all ones, whatever `L` is. -/
theorem vexRow_invalid_of_vvvv {f : VexImm8} (h : f.vvvv ≠ 0b1111#4) (l : Bool) : (vexRow l f).valid = false := by
  cases l with
  | false => rfl
  | true => exact beq_false_of_ne h

/-- An EVEX imm8 row is invalid with `vvvv` not all ones, whatever `L'L` is. -/
theorem evexImm8Row_invalid_of_vvvv {f : EvexImm8} (h : f.vvvv ≠ 0b1111#4) (ll : BitVec 2) :
    (evexImm8Row ll f).valid = false := by
  have hf : f.valid = false := by simp [EvexImm8.valid, h]
  cases ll using lengthField_cases with
  | h0 | h3 => rfl
  | h1 | h2 => exact hf

/-- Settles O10: `L = 0` selects an illegal row. -/
theorem vexLZeroRaisesUd : Obligations.VexLZeroRaisesUd := by
  intro s p0 p1 rest hm hf hb hmap hpp hw hl
  obtain ⟨f, -, hx⟩ := step_of_vexHead hm hf hb ⟨hmap, hpp, hw, rfl⟩
  rw [hx, hl]
  exact exec_of_invalid hm rfl

/-- Settles O11: the row that `L` selects is invalid with these bits. -/
theorem vexVvvvReservedRaisesUd : Obligations.VexVvvvReservedRaisesUd := by
  intro s p0 p1 rest hm hf hb hmap hpp hw hvvvv
  obtain ⟨f, hv, hx⟩ := step_of_vexHead hm hf hb ⟨hmap, hpp, hw, rfl⟩
  rw [hx]
  exact exec_of_invalid hm (vexRow_invalid_of_vvvv (hv ▸ hvvvv) _)

/-- Settles O12: `L'L = 00b` selects an illegal row, of either opcode. -/
theorem evex128RaisesUd : Obligations.Evex128RaisesUd := by
  rintro s p0 p1 p2 opcode rest hm hf hb hpp hw (⟨hmap, hop⟩ | ⟨hmap, hop⟩) hll
  · obtain ⟨f, -, hx⟩ := step_of_evexImm8Head hm hf hb ⟨hmap, hpp, hw, hop⟩
    rw [hx, hll]
    exact exec_of_invalid hm rfl
  · obtain ⟨f, hx⟩ := step_of_evexVecHead hm hf hb ⟨hmap, hpp, hw, hop⟩
    rw [hx, hll]
    exact exec_of_invalid hm rfl

/-- `#UD` depends on a form's reserved fields and its row's condition alone. -/
theorem exec_ud_congr {i i' : Instr} {s : State} {w : FormView} (hw : viewOf i = some w)
    (hv : i'.valid = i.valid) (hu : Usable s.cfg i' ↔ Usable s.cfg i) (hx : exec i s = .fault (.ud s)) :
    exec i' s = .fault (.ud s) := by
  have hm := mode64_of_exec_fault hw hx
  rw [exec_eq_ud_iff hm, hv, hu]
  exact (exec_eq_ud_iff hm).1 hx

/-- Settles O13: the imm8 row that `L'L` selects is invalid with these bits, and neither the reserved fields nor the
condition of a vector-control form names the index. -/
theorem evexVvvvReservedWithImm8RaisesUd : Obligations.EvexVvvvReservedWithImm8RaisesUd := by
  refine ⟨fun s p0 p1 p2 rest hm hf hb hpp hw hmap hvvvv => ?_, fun s f v => ⟨?_, ?_⟩⟩
  · obtain ⟨f, hv, hx⟩ := step_of_evexImm8Head hm hf hb ⟨hmap, hpp, hw, rfl⟩
    rw [hx]
    exact exec_of_invalid hm (evexImm8Row_invalid_of_vvvv (hv ▸ hvvvv) _)
  · exact exec_ud_congr rfl rfl Iff.rfl
  · exact exec_ud_congr rfl rfl Iff.rfl

/-! ### What a fault carries (R81, R87) -/

/-- Settles O18: a step raises with the state it started from. -/
theorem faultsArePrecise : Obligations.FaultsArePrecise :=
  fun _ _ h => Fault.eq_of_state (step_fault_state h)

/-- Settles O19: the state that the fault carries is the one before the step. -/
theorem udIsVectorSixAndRecordsNothing : Obligations.UdIsVectorSixAndRecordsNothing :=
  fun _ _ h => ⟨rfl, congrArg State.pc (step_fault_state h), rfl, rfl⟩

end Sys2Proof.Machine

/-! The launcher's load of a word at `pc` (O49), and the runs of programs (O52). -/

namespace Sys2Proof

theorem Instr.length_pos (i : Instr) : 0 < i.length := by
  cases i using Instr.shapeCases with
  | vex l f => rw [vexRow_length]; exact Nat.lt_of_lt_of_le (by decide) f.length_bounds.1
  | imm8 ll f => rw [evexImm8Row_length]; exact Nat.lt_of_lt_of_le (by decide) f.length_bounds.1
  | vec ll f => rw [evexVecRow_length]; exact Nat.lt_of_lt_of_le (by decide) f.length_bounds.1

end Sys2Proof

namespace Sys2Proof.Machine

/-! ### Addresses modulo 2^64 -/

theorem byteAddr_add (a : Word) (m k : Nat) : byteAddr (byteAddr a m) k = byteAddr a (m + k) := by
  rw [byteAddr, byteAddr, byteAddr, BitVec.ofNat_add, BitVec.add_assoc]

theorem byteAddr_succ (a : Word) (k : Nat) : byteAddr (a + 1#64) k = byteAddr a (k + 1) :=
  (byteAddr_add a 1 k).trans (by rw [Nat.add_comm])

theorem byteAddr_toNat {a : Word} {k : Nat} (h : a.toNat + k < 2 ^ 64) : (byteAddr a k).toNat = a.toNat + k := by
  rw [byteAddr, BitVec.toNat_add, BitVec.toNat_ofNat, Nat.add_mod_mod, Nat.mod_eq_of_lt h]

/-! ### What the load leaves of the parameters (R100) -/

theorem clearOf_iff {a : Word} {n : Nat} {r : AddrRange} :
    clearOf a n r = true ↔ ∀ k, k < n → inRange r (byteAddr a k) = false := by
  simp [clearOf, touches]

theorem touches_one (r : AddrRange) (a : Word) : touches r a 1 = inRange r a := by
  simp [touches, byteAddr_zero]

section Window

variable {k : Nat} (bs : List Byte) (s : State)

theorem translate_placeAtPc (hk : k < fetchWindow) :
    translate (placeAtPc bs s).cfg.translation (byteAddr s.pc k) = byteAddr s.pc k :=
  translate_of_uncovered fun _ hq => clearOf_iff.1 (List.mem_filter.1 hq).2 k hk

theorem memFault_placeAtPc (hk : k < fetchWindow) : memFault (placeAtPc bs s) (byteAddr s.pc k) 1 = none := by
  refine Option.map_eq_none_iff.2 (List.find?_eq_none.2 fun q hq => ?_)
  have hclear := List.all_eq_true.1 (List.mem_filter.1 hq).2 k (List.mem_range.2 hk)
  simpa using hclear

theorem touchesDevice_placeAtPc (hk : k < fetchWindow) :
    touchesDevice (placeAtPc bs s) (byteAddr s.pc k) 1 = false := by
  refine List.any_eq_false.2 fun r hr => ?_
  rw [touches_one, clearOf_iff.1 (List.mem_filter.1 hr).2 k hk]
  decide

end Window

theorem fetchable_placeAtPc (bs : List Byte) (s : State) : fetchable (placeAtPc bs s) fetchWindow = true :=
  fetchable_of_readable fun _ hk => ⟨memFault_placeAtPc bs s hk, touchesDevice_placeAtPc bs s hk⟩

/-! ### The bytes that the load stores -/

/-- Storing bytes leaves every other address alone, those from 2^64 on included. -/
theorem storeBytes_read_of_ne {bs : List Byte} {a : Word} {m : Memory} {c : Nat} (hm : m.wf = true)
    (hc : ∀ k, k < bs.length → c ≠ (byteAddr a k).toNat) : (storeBytes a bs m).read c = m.read c := by
  induction bs generalizing a m with
  | nil => rfl
  | cons b rest ih =>
    have hfirst : c ≠ a.toNat := byteAddr_zero a ▸ hc 0 (by simp)
    have hrest : ∀ k, k < rest.length → c ≠ (byteAddr (a + 1#64) k).toNat := fun k hk => by
      rw [byteAddr_succ]
      exact hc (k + 1) (by simpa using hk)
    rw [storeBytes, ih (Memory.write_wf a.isLt hm) hrest, Memory.read_write hm, if_neg hfirst]

/-- The next fetch finds the bytes placed. -/
theorem fetchBytes_placeAtPc {bs : List Byte} {s : State} (hm : s.mem.wf = true) (hb : bs.length = fetchWindow) :
    fetchBytes (placeAtPc bs s) = bs := by
  refine List.ext_getElem ((fetchBytes_length _).trans hb.symm) fun k _ hk => ?_
  have hwindow : k < fetchWindow := hb ▸ hk
  have hoffset : (byteAddr s.pc k - s.pc).toNat = k := by
    rw [fetchWindow] at hwindow
    rw [byteAddr]
    bv_omega
  have hread : readByte (placeAtPc bs s) (byteAddr s.pc k) = bs[k] := by
    rw [readByte, translate_placeAtPc bs s hwindow, placeAtPc_mem, storeBytes_read bs _ _ hm (hb ▸ by decide)]
    simp only [hoffset, hk, dite_true]
  simp only [fetchBytes, List.getElem_map, List.getElem_range, placeAtPc_pc, hread]

theorem step_placeAtPc {bs rest : List Byte} {s : State} {i : Instr} (hm : s.mem.wf = true)
    (hb : bs.length = fetchWindow) (hd : decode bs = .instr i rest) :
    step (placeAtPc bs s) = exec i (placeAtPc bs s) :=
  stepRunsTheDecodedInstruction _ i rest rfl ((fetchBytes_placeAtPc hm hb).symm ▸ hd)
    (fetchable_mono (i.length_le.trans (by decide)) (fetchable_placeAtPc bs s))

theorem tableWordBytes_length (nbits w : Nat) : (tableWordBytes nbits w).length = fetchWindow := by
  rw [tableWordBytes, List.length_map, List.length_range]

theorem decode_of_decodeTableWord {nbits w : Nat} {i : Instr} (h : decodeTableWord nbits w = some i) :
    ∃ rest, decode (tableWordBytes nbits w) = .instr i rest := by
  unfold decodeTableWord at h
  split at h
  · rename_i rest hd
    exact ⟨rest, Option.some.inj h ▸ hd⟩
  · cases h
  · cases h

/-- Settles O49: the fetch after the load finds the word's bytes (`fetchBytes_placeAtPc`), and of the parameters the
load filters lists only. -/
theorem placedWordRunsNext : Obligations.PlacedWordRunsNext := by
  intro s nbits w hm
  have hlen := tableWordBytes_length nbits w
  rw [State.withFetchWord]
  refine ⟨fun i hi => ?_, storeBytes_wf _ _ _ hm, placeAtPc_v _ s, placeAtPc_k _ s, placeAtPc_g _ s,
    placeAtPc_pc _ s, statusState_placeAtPc _ s, fun a ha => ?_,
    rfl, rfl, rfl, rfl, rfl, rfl, rfl, rfl, List.filter_sublist, List.filter_sublist, List.filter_sublist⟩
  · obtain ⟨rest, hd⟩ := decode_of_decodeTableWord hi
    exact step_placeAtPc hm hlen hd
  · exact storeBytes_read_of_ne hm fun k hk => ha k (hk.trans_eq hlen)

/-! ### Runs (R96) -/

section RunTo

variable {last : Word} {s t : State}

theorem runTo_of_pc_eq (h : s.pc = last) (n : Nat) : runTo last n s = .successful s := by
  cases n <;> simp [runTo, h]

theorem runTo_succ_of_next (hpc : s.pc ≠ last) (h : step s = .next t) (n : Nat) :
    runTo last (n + 1) s = runTo last n t := by
  simp [runTo, hpc, h]

theorem runTo_succ_of_fault {x : Fault} (hpc : s.pc ≠ last) (h : step s = .fault x) (n : Nat) :
    runTo last (n + 1) s = .faulted x := by
  simp [runTo, hpc, h]

theorem runTo_succ_of_refused {r : Refusal} (hpc : s.pc ≠ last) (h : step s = .refused r) (n : Nat) :
    runTo last (n + 1) s = .stuck r := by
  simp [runTo, hpc, h]

/-- A run that is over stays as it is, however many more steps are allowed. -/
theorem runTo_of_le {m n : Nat} (hmn : m ≤ n) (h : ∀ u, runTo last m s ≠ .unfinished u) :
    runTo last n s = runTo last m s := by
  induction m generalizing n s with
  | zero =>
    by_cases hpc : s.pc = last
    · rw [runTo_of_pc_eq hpc, runTo_of_pc_eq hpc]
    · exact absurd (by simp [runTo, hpc]) (h s)
  | succ m ih =>
    by_cases hpc : s.pc = last
    · rw [runTo_of_pc_eq hpc, runTo_of_pc_eq hpc]
    obtain ⟨n, rfl⟩ := Nat.exists_eq_succ_of_ne_zero (Nat.ne_zero_of_lt hmn)
    cases hs : step s with
    | next t =>
      rw [runTo_succ_of_next hpc hs] at h ⊢
      rw [runTo_succ_of_next hpc hs]
      exact ih (Nat.le_of_succ_le_succ hmn) h
    | fault x => rw [runTo_succ_of_fault hpc hs, runTo_succ_of_fault hpc hs]
    | refused r => rw [runTo_succ_of_refused hpc hs, runTo_succ_of_refused hpc hs]

/-- What a run that is over says: it has reached the end, or a step raises. -/
theorem runTo_outcome (last : Word) (n : Nat) (s : State) :
    (∀ t, runTo last n s = .successful t → t.pc = last) ∧
    (∀ x, runTo last n s = .faulted x → step x.state = .fault x) := by
  induction n generalizing s with
  | zero =>
    by_cases hpc : s.pc = last <;> simp [runTo, hpc]
  | succ n ih =>
    by_cases hpc : s.pc = last
    · simp [runTo, hpc]
    · cases hs : step s with
      | next t => rw [runTo_succ_of_next hpc hs]; exact ih t
      | fault x =>
        rw [runTo_succ_of_fault hpc hs]
        refine ⟨by simp, fun y hy => ?_⟩
        obtain rfl := RunOutcome.faulted.inj hy
        rw [step_fault_state hs, hs]
      | refused r => simp [runTo_succ_of_refused hpc hs]

end RunTo

/-! ### Programs in memory (R96) -/

/-- An encoding decodes, whatever follows it, to an instruction of its own length. -/
theorem decode_append_of_isEncoding {bs : List Byte} (h : isEncoding bs = true) :
    ∃ i : Instr, bs.length = i.length ∧ ∀ rest, decode (bs ++ rest) = .instr i rest := by
  unfold isEncoding at h
  split at h
  · rename_i i rest hd
    obtain rfl := List.isEmpty_iff.1 h
    exact ⟨i, (decode_append hd []).2, fun rest => (decode_append hd rest).1⟩
  · cases h
  · cases h

theorem Program.size_eq (p : Program) : p.size = p.encodings.flatten.length := List.length_flatten.symm

theorem Program.size_cons (a b : Word) (e : List Byte) (es : List (List Byte)) :
    Program.size ⟨a, e :: es⟩ = e.length + Program.size ⟨b, es⟩ := List.sum_cons

theorem Program.last_cons (a : Word) (e : List Byte) (es : List (List Byte)) :
    Program.last ⟨a, e :: es⟩ = Program.last ⟨byteAddr a e.length, es⟩ := by
  rw [Program.last, Program.last, Program.size_cons a (byteAddr a e.length)]
  exact (byteAddr_add a _ _).symm

theorem Program.wf_iff {p : Program} :
    p.wf = true ↔ (∀ e ∈ p.encodings, isEncoding e = true) ∧ p.start.toNat + p.size < 2 ^ 64 := by
  simp [Program.wf]

theorem Program.last_toNat {p : Program} (h : p.wf = true) : p.last.toNat = p.start.toNat + p.size :=
  byteAddr_toNat (Program.wf_iff.1 h).2

/-- A program without its first encoding is one that starts past it. -/
theorem Program.wf_cons {a : Word} {e : List Byte} {es : List (List Byte)} (h : Program.wf ⟨a, e :: es⟩ = true) :
    isEncoding e = true ∧ Program.wf ⟨byteAddr a e.length, es⟩ = true := by
  obtain ⟨hall, hend⟩ := Program.wf_iff.1 h
  obtain ⟨he, hes⟩ := List.forall_mem_cons.1 hall
  rw [Program.size_cons a (byteAddr a e.length), ← Nat.add_assoc] at hend
  refine ⟨he, Program.wf_iff.2 ⟨hes, ?_⟩⟩
  rwa [byteAddr_toNat ((Nat.le_add_right _ _).trans_lt hend)]

/-- Do the bytes `bs` stand in memory from `a` on? -/
def BytesAt (s : State) (a : Word) (bs : List Byte) : Prop :=
  ∀ k, ∀ h : k < bs.length, readByte s (byteAddr a k) = bs[k]

theorem Program.laidOutIn_iff {p : Program} {s : State} :
    p.laidOutIn s = true ↔ BytesAt s p.start p.encodings.flatten := by
  rw [Program.laidOutIn, beq_iff_eq, Program.size_eq, BytesAt]
  constructor
  · intro h k hk
    rw [List.getElem_of_eq h.symm hk, List.getElem_map, List.getElem_range]
  · intro h
    exact List.ext_getElem (by simp) fun k _ hk => by simpa using h k hk

theorem bytesAt_append {s : State} {a : Word} {bs cs : List Byte} :
    BytesAt s a (bs ++ cs) ↔ BytesAt s a bs ∧ BytesAt s (byteAddr a bs.length) cs := by
  constructor
  · intro h
    constructor
    · intro k hk
      rw [h k (by simp; omega), List.getElem_append_left hk]
    · intro k hk
      rw [byteAddr_add, h _ (by simp; omega), List.getElem_append_right (Nat.le_add_right ..)]
      simp
  · rintro ⟨hb, hc⟩ k hk
    by_cases hlt : k < bs.length
    · rw [hb k hlt, List.getElem_append_left hlt]
    · obtain ⟨j, rfl⟩ := Nat.exists_eq_add_of_le (Nat.not_lt.1 hlt)
      rw [← byteAddr_add, hc j (by simp at hk; omega), List.getElem_append_right (Nat.le_add_right ..)]
      simp

theorem Program.laidOutIn_cons {a : Word} {e : List Byte} {es : List (List Byte)} {s : State} :
    Program.laidOutIn ⟨a, e :: es⟩ s = true ↔
      BytesAt s a e ∧ Program.laidOutIn ⟨byteAddr a e.length, es⟩ s = true := by
  rw [Program.laidOutIn_iff, Program.laidOutIn_iff]
  exact bytesAt_append

theorem Program.laidOutIn_congr {s t : State} (h : ∀ b, readByte t b = readByte s b) (p : Program) :
    p.laidOutIn t = p.laidOutIn s := by
  simp only [Program.laidOutIn, h]

theorem BytesAt.isPrefix_fetchBytes {s : State} {bs : List Byte} (h : BytesAt s s.pc bs)
    (hl : bs.length ≤ fetchWindow) : bs <+: fetchBytes s :=
  List.prefix_iff_getElem?.2 fun k hk => by rw [fetchBytes_getElem? s (hk.trans_le hl), h k hk]

/-! ### A program's first step -/

/-- The state is at the start of the program, whose bytes stand in memory. -/
structure Program.AtStart (p : Program) (s : State) : Prop where
  wf : p.wf = true
  laidOut : p.laidOutIn s = true
  pc : s.pc = p.start

section FirstStep

variable {a : Word} {e : List Byte} {es : List (List Byte)} {s t : State}

theorem Program.AtStart.pc_ne_last (h : Program.AtStart ⟨a, e :: es⟩ s) : s.pc ≠ Program.last ⟨a, e :: es⟩ := by
  obtain ⟨i, hlen, -⟩ := decode_append_of_isEncoding (Program.wf_cons h.wf).1
  have hlast := Program.last_toNat h.wf
  have hpos := i.length_pos
  rw [Program.size_cons a a] at hlast
  intro hpc
  rw [← hpc, h.pc] at hlast
  omega

/-- A step that completes is the first encoding's: `pc` is past that encoding, and memory reads as before. -/
theorem Program.AtStart.pc_and_bytes_of_next (h : Program.AtStart ⟨a, e :: es⟩ s) (hs : step s = .next t) :
    t.pc = byteAddr a e.length ∧ ∀ b, readByte t b = readByte s b := by
  obtain ⟨i, hlen, hdecode⟩ := decode_append_of_isEncoding (Program.wf_cons h.wf).1
  have hbytes : BytesAt s s.pc e := h.pc ▸ (Program.laidOutIn_cons.1 h.laidOut).1
  obtain ⟨rest, hfetch⟩ := hbytes.isPrefix_fetchBytes (hlen ▸ i.length_le.trans (by decide))
  obtain ⟨j, r, w, hd, -, -, -, -, -, rfl⟩ := step_next hs
  obtain ⟨rfl, -⟩ := Decoded.instr.inj ((hdecode rest).symm.trans (hfetch ▸ hd))
  exact ⟨by rw [nextState_pc, h.pc, hlen, byteAddr], (onlyWrites_nextState s i w).bytes⟩

/-- After its first step a program's state is at the start of what is left of it, which has the same end. -/
theorem Program.AtStart.tail (h : Program.AtStart ⟨a, e :: es⟩ s) (hs : step s = .next t) :
    Program.AtStart ⟨t.pc, es⟩ t ∧ Program.last ⟨t.pc, es⟩ = Program.last ⟨a, e :: es⟩ := by
  obtain ⟨hpc, hread⟩ := h.pc_and_bytes_of_next hs
  rw [hpc]
  exact ⟨⟨(Program.wf_cons h.wf).2, Program.laidOutIn_congr hread _ ▸ (Program.laidOutIn_cons.1 h.laidOut).2, hpc⟩,
    (Program.last_cons a e es).symm⟩

theorem Program.AtStart.run_of_next (h : Program.AtStart ⟨a, e :: es⟩ s) (hs : step s = .next t) :
    Program.run ⟨a, e :: es⟩ s = Program.run ⟨t.pc, es⟩ t := by
  rw [Program.run, List.length_cons, runTo_succ_of_next h.pc_ne_last hs, Program.run, (h.tail hs).2]

theorem Program.AtStart.run_of_fault {x : Fault} (h : Program.AtStart ⟨a, e :: es⟩ s) (hs : step s = .fault x) :
    Program.run ⟨a, e :: es⟩ s = .faulted x :=
  runTo_succ_of_fault h.pc_ne_last hs _

theorem Program.AtStart.run_of_refused {r : Refusal} (h : Program.AtStart ⟨a, e :: es⟩ s) (hs : step s = .refused r) :
    Program.run ⟨a, e :: es⟩ s = .stuck r :=
  runTo_succ_of_refused h.pc_ne_last hs _

end FirstStep

/-! ### A program's run -/

theorem Program.run_nil {a : Word} {s : State} (h : s.pc = a) : Program.run ⟨a, []⟩ s = .successful s :=
  runTo_of_pc_eq (h.trans (BitVec.add_zero a).symm) _

/-- One step for each instruction is enough. -/
theorem Program.AtStart.run_ne_unfinished {es : List (List Byte)} {a : Word} {s : State}
    (h : Program.AtStart ⟨a, es⟩ s) (u : State) : Program.run ⟨a, es⟩ s ≠ .unfinished u := by
  induction es generalizing a s with
  | nil => simp [Program.run_nil h.pc]
  | cons e es ih =>
    cases hs : step s with
    | next t =>
      rw [h.run_of_next hs]
      exact ih (h.tail hs).1
    | fault x => simp [h.run_of_fault hs]
    | refused r => simp [h.run_of_refused hs]

/-- Settles O52: no run is left unfinished (`run_ne_unfinished`), so more steps change nothing, and after a first step
the state is at the start of what is left of the program (`tail`). -/
theorem runTakesAtMostOneStepPerInstruction : Obligations.RunTakesAtMostOneStepPerInstruction := by
  rintro ⟨a, es⟩ s hwf hlaid hpc
  have h : Program.AtStart ⟨a, es⟩ s := ⟨hwf, hlaid, hpc⟩
  obtain ⟨hsuccess, hfault⟩ := runTo_outcome (Program.last ⟨a, es⟩) es.length s
  refine ⟨Program.last_toNat hwf, h.run_ne_unfinished, fun n hn => runTo_of_le hn h.run_ne_unfinished, hsuccess,
    hfault, ?_, ?_, ?_⟩
  · rintro rfl
    exact Program.run_nil hpc
  · intro hne x hs
    obtain ⟨e, es, rfl⟩ := List.exists_cons_of_ne_nil hne
    exact h.run_of_fault hs
  · intro hne t hs
    obtain ⟨e, es, rfl⟩ := List.exists_cons_of_ne_nil hne
    obtain ⟨hrest, hlast⟩ := h.tail hs
    exact ⟨hrest.wf, hrest.laidOut, hlast, h.run_of_next hs⟩

end Sys2Proof.Machine
